-- ==== Sys2Proof/Word.lean ====
section
/-! DEFINITION. The widths of 5BIT-ENC (spec 00_scope.md R8, 20_memory.md R51): one name for each kind of word the
block holds or carries. Every one of them is unsigned (R10). -/

namespace Sys2Proof

/-- A command word, CMD_W = 16 bits (R8, R57). It is transferred whole, so it has no byte order (R49). -/
abbrev Word := BitVec 16

/-- An input character, CHAR_W = 8 bits (R8, R11). -/
abbrev Ch := BitVec 8

/-- A code of the code stream, CODE_W = 5 bits (R8, R65). -/
abbrev Code := BitVec 5

/-- A packed byte, BYTE_W = 8 bits (R8). -/
abbrev Byte := BitVec 8

/-- The 9-bit KEY operand of RD_COUNT (R58, R59). -/
abbrev Key := BitVec 9

/-- A response word, RSP_W = 32 bits (R8). -/
abbrev Rsp := BitVec 32

end Sys2Proof
end

