-- ==== Sys2Proof/Config.lean ====
section
/-! DEFINITION. What is fixed when the block is built (spec 00_scope.md R8, R9): the number of counter keys, the key of
the pseudo-key "shift", and the two open parameters CNT_W and FIG_PUNCT with the constraints R9 puts on them. -/

namespace Sys2Proof

/-- NUM_KEYS (R8): 256 characters and the pseudo-key "shift". -/
def Config.numKeys : Nat := 257

/-- KEY_SHIFT (R8): the counter index of the pseudo-key "shift". -/
def Config.keyShift : Nat := 0x100

/-- The ASCII punctuation characters as R9 lists them (93_implementation_defined.md G5). -/
def isAsciiPunct (ch : Ch) : Bool :=
  (0x21 ≤ ch.toNat && ch.toNat ≤ 0x2F) || (0x3A ≤ ch.toNat && ch.toNat ≤ 0x40) ||
  (0x5B ≤ ch.toNat && ch.toNat ≤ 0x60) || (0x7B ≤ ch.toNat && ch.toNat ≤ 0x7E)

/-- What R9 lets a model assume of one entry of FIG_PUNCT: ASCII punctuation (so below 0x80 and no digit), and neither
':' nor ';'. -/
def figPunctEntry (ch : Ch) : Bool :=
  isAsciiPunct ch && ch != 0x3A#8 && ch != 0x3B#8

/-- What R9 lets a model assume of FIG_PUNCT: exactly 15 entries, pairwise distinct, each as `figPunctEntry` says. -/
def figPunctLegal (l : List Ch) : Bool :=
  l.length == 15 && l.all figPunctEntry && decide l.Nodup

/-- The two open parameters of R9, "which the model takes as arguments". They ride in the machine's state, where no
step changes them, because the step function has no other argument (log entry 1). -/
structure Params where
  /-- CNT_W, the width of each frequency counter, 1 to 32 (R9). -/
  cntW : Nat
  /-- FIG_PUNCT: the entry at place i has code i + 1 (R9). -/
  figPunct : List Ch
  deriving DecidableEq, Repr

/-- The constraints of R9 on the two parameters. -/
def Params.wf (p : Params) : Bool :=
  decide (1 ≤ p.cntW) && decide (p.cntW ≤ 32) && figPunctLegal p.figPunct

/-- CNT_W's default (R9: "this spec's default is 32"). -/
def Config.cntWDefault : Nat := 32

/-- FREE VALUE (log entry 2): the characters of FIG_PUNCT, which no source names (91_not_in_source.md N1). -/
opaque Config.figPunctRaw : List Ch

/-- The FIG_PUNCT the block is built with, as far as anything can be proved of it: SOME list that meets R9. Where the
free value meets R9 it is that value; the other branch only keeps an unlawful list out, and is itself a lawful list,
so a fact holds of this list in every world exactly when it holds of every lawful list (log entry 2). -/
def Config.figPunct : List Ch :=
  if figPunctLegal Config.figPunctRaw then Config.figPunctRaw
  else (List.range 15).map fun i => BitVec.ofNat 8 (0x21 + i)

/-- The parameters of the block that `State.reset` describes. -/
def Config.params : Params := { cntW := Config.cntWDefault, figPunct := Config.figPunct }

end Sys2Proof
end

