-- ==== Sys2Proof/Syntax.lean ====
section
/-! DEFINITION. The eight commands of spec/opcode_table.json (spec 30_encoding.md R58, R60; 42_readback.md R139: there
is no other). Every operand is an immediate field of the command word (10_state.md R16). -/

namespace Sys2Proof

/-- A command of 5BIT-ENC, one constructor for each row of R60. -/
inductive Instr where
  /-- NOP, format N (R107). -/
  | nop
  /-- ENC_CHAR, format C: encode the character CH (R86). -/
  | encChar (ch : Ch)
  /-- ENC_CLOSE, format N: close the encoder session (R97). -/
  | encClose
  /-- PK_ADD, format K: pack the code CODE (R99). -/
  | pkAdd (code : Code)
  /-- PK_CLOSE, format N: end the packed buffer (R102). -/
  | pkClose
  /-- RD_COUNT, format Y: read the counter KEY (R108). -/
  | rdCount (key : Key)
  /-- RD_STATUS, format N (R109). -/
  | rdStatus
  /-- RD_FAULT, format N (R110). -/
  | rdFault
  deriving DecidableEq, Repr

/-- The mnemonic of a command, as R60 and the opcode table spell it. -/
def Instr.mnemonic : Instr → String
  | .nop => "NOP"
  | .encChar _ => "ENC_CHAR"
  | .encClose => "ENC_CLOSE"
  | .pkAdd _ => "PK_ADD"
  | .pkClose => "PK_CLOSE"
  | .rdCount _ => "RD_COUNT"
  | .rdStatus => "RD_STATUS"
  | .rdFault => "RD_FAULT"

end Sys2Proof
end

