-- ==== Sys2Proof/WellFormed.lean ====
section
/-! DEFINITION. The operand ranges of spec 30_encoding.md R58: every operand's width is its legal range but KEY's, whose
nine bits may only hold 0x000 to 0x100. -/

namespace Sys2Proof

/-- A command whose operand is in the range R58 gives it. -/
def Instr.wf : Instr → Bool
  | .rdCount key => decide (key.toNat ≤ Config.keyShift)
  | .nop | .encChar _ | .encClose | .pkAdd _ | .pkClose | .rdStatus | .rdFault => true

end Sys2Proof
end

