-- ==== Sys2Proof/Decode.lean ====
section
/-! DEFINITION. Command words (spec 30_encoding.md R57 to R63): the fields of a word, its legality, the decoder, total on
the 65,536 words and naming why it rejects one, the encoder written from the same table, and the opcode map of R60 as
rows of match and mask. -/

namespace Sys2Proof

/-- OP = w[15:12] (R57). -/
def opOf (w : Word) : BitVec 4 := w.extractLsb' 12 4

/-- ARG = w[11:0] (R57). -/
def argOf (w : Word) : BitVec 12 := w.extractLsb' 0 12

/-- CH = w[7:0] (R59). -/
def chOf (w : Word) : Ch := w.extractLsb' 0 8

/-- CODE = w[4:0] (R59). -/
def codeOf (w : Word) : Code := w.extractLsb' 0 5

/-- KEY = w[8:0] (R59). -/
def keyOf (w : Word) : Key := w.extractLsb' 0 9

/-- Why a word is not legal: the three cases R61 lists. -/
inductive Illegal where
  /-- OP is 0x8 to 0xF. -/
  | reservedOpcode
  /-- A reserved bit of ARG is not 0. -/
  | reservedArgument
  /-- RD_COUNT with KEY in 0x101 to 0x1FF. -/
  | keyOutOfRange
  deriving DecidableEq, Repr

/-- The command `i` where the reserved bits, given as a number, are all 0. -/
def reservedZero (reserved : Nat) (i : Instr) : Except Illegal Instr :=
  if reserved = 0 then .ok i else .error .reservedArgument

/-- The command that a word of format Y names: the reserved bits first, then the range of KEY (R58, R61). -/
def decodeKeyed (w : Word) : Except Illegal Instr :=
  if (argOf w).toNat / 2 ^ 9 ≠ 0 then .error .reservedArgument
  else if (keyOf w).toNat ≤ Config.keyShift then .ok (.rdCount (keyOf w))
  else .error .keyOutOfRange

/-- The command a word stands for (R60), or why it stands for none (R61). A function of the 16 bits alone (R63). -/
def decode (w : Word) : Except Illegal Instr :=
  match (opOf w).toNat with
  | 0x0 => reservedZero (argOf w).toNat .nop
  | 0x1 => reservedZero ((argOf w).toNat / 2 ^ 8) (.encChar (chOf w))
  | 0x2 => reservedZero (argOf w).toNat .encClose
  | 0x3 => reservedZero ((argOf w).toNat / 2 ^ 5) (.pkAdd (codeOf w))
  | 0x4 => reservedZero (argOf w).toNat .pkClose
  | 0x5 => decodeKeyed w
  | 0x6 => reservedZero (argOf w).toNat .rdStatus
  | 0x7 => reservedZero (argOf w).toNat .rdFault
  | _ => .error .reservedOpcode

/-- `Legal(w)` (R61): the word decodes. -/
def legal (w : Word) : Bool :=
  match decode w with
  | .ok _ => true
  | .error _ => false

/-- The word of a command: OP, then the operand in the low bits of ARG and zeros above it (R57 to R60). -/
def encode : Instr → Word
  | .nop => 0x0#4 ++ 0#12
  | .encChar ch => 0x1#4 ++ 0#4 ++ ch
  | .encClose => 0x2#4 ++ 0#12
  | .pkAdd code => 0x3#4 ++ 0#7 ++ code
  | .pkClose => 0x4#4 ++ 0#12
  | .rdCount key => 0x5#4 ++ 0#3 ++ key
  | .rdStatus => 0x6#4 ++ 0#12
  | .rdFault => 0x7#4 ++ 0#12

/-- The opcode map of R60, which is spec/opcode_table.json: mnemonic, match and mask of each row. -/
def opcodeMap : List (String × Word × Word) :=
  [("NOP", 0x0000, 0xFFFF), ("ENC_CHAR", 0x1000, 0xFF00), ("ENC_CLOSE", 0x2000, 0xFFFF), ("PK_ADD", 0x3000, 0xFFE0),
   ("PK_CLOSE", 0x4000, 0xFFFF), ("RD_COUNT", 0x5000, 0xFE00), ("RD_STATUS", 0x6000, 0xFFFF),
   ("RD_FAULT", 0x7000, 0xFFFF)]

/-- The number that the low `nbits` bits of `w` write: every bit above them is 0. -/
def tableBits (nbits w : Nat) : Nat := w % 2 ^ nbits

/-- The word that the low `nbits` bits of `w` write. -/
def tableWord (nbits w : Nat) : Word := BitVec.ofNat 16 (tableBits nbits w)

/-- The command that the decoder reads from the bits `w` of an opcode-table row of `nbits` bits. Every row has 16 bits, so
a value that needs more is no command word. -/
def decodeTableWord (nbits w : Nat) : Option Instr :=
  if tableBits nbits w < 2 ^ 16 then
    match decode (tableWord nbits w) with
    | .ok i => some i
    | .error _ => none
  else none

end Sys2Proof
end

