-- ==== Sys2Proof/Machine/State.lean ====
section
/-! DEFINITION. The state of 5BIT-ENC: the fourteen entries of spec 10_state.md R15, in its order, and two fields of the
model's own: the inputs the host has still to present (log entry 3) and the build parameters of R9 (log entry 1). -/

namespace Sys2Proof.Machine

/-- MODE (R18): Letters is 0, Figures is 1, and there is no third value (R19). -/
inductive Mode where
  | letters
  | figures
  deriving DecidableEq, Repr

/-- SHIFT_STATUS (R20) and the case of a letter (R80): lowercase is 0, uppercase is 1. -/
inductive LetterCase where
  | lower
  | upper
  deriving DecidableEq, Repr

/-- FAULT_CAUSE (R29): none is 0, PROTOCOL_MISUSE is 1, ILLEGAL_COMMAND is 2. The value 3 is "reserved (never written)"
and is left out, as 93_implementation_defined.md U12 allows (log entry 10). -/
inductive FaultCause where
  | none
  | protocolMisuse
  | illegalCommand
  deriving DecidableEq, Repr

/-- An item of the packed stream PB (R31). -/
inductive PbItem where
  | byte (b : Byte)
  | bufferEnd
  deriving DecidableEq, Repr

/-- An item of the diagnostic stream DIAG (R32): `Unencodable(ch)`. -/
inductive DiagItem where
  | unencodable (ch : Ch)
  deriving DecidableEq, Repr

/-- The counters COUNT (R22), as (key, value) pairs in one canonical form (`Counters.wf` in Ops.lean): keys strictly
rising, no entry 0, so that a key not listed reads 0, as "an explicit mapping type whose lookup returns zero for absent
keys" does (log entry 14). -/
abbrev Counters := List (Nat × Nat)

/-- What the host does next at the block's inputs (20_memory.md R39, R40; 70_reset_and_hazards.md R128). -/
inductive HostInput where
  /-- The host presents the command word `w`, which the block accepts. -/
  | command (w : Word)
  /-- The host asserts `rst` at a rising edge of clk. -/
  | reset
  deriving DecidableEq, Repr

structure State where
  /-- MODE (R18). -/
  mode : Mode
  /-- SHIFT_STATUS (R20). -/
  shiftStatus : LetterCase
  /-- ENC_CLOSED (R21). -/
  encClosed : Bool
  /-- COUNT[0..256] (R22). -/
  count : Counters
  /-- PK_ACC (R26). -/
  pkAcc : BitVec 8
  /-- PK_OFF (R26). -/
  pkOff : BitVec 3
  /-- PK_CLOSED (R28). -/
  pkClosed : Bool
  /-- FAULT (R29). -/
  fault : Bool
  /-- FAULT_CAUSE (R29). -/
  faultCause : FaultCause
  /-- FAULT_CMD (R29). -/
  faultCmd : Word
  /-- CS, the code stream (R30): every code emitted since reset, oldest first, whatever the host has taken (log entries 5
  and 6). -/
  cs : List Code
  /-- PB, the packed stream (R31). -/
  pb : List PbItem
  /-- DIAG, the diagnostic stream (R32). -/
  diag : List DiagItem
  /-- RSP, the response stream (R33). -/
  rsp : List Rsp
  /-- The model's own: what the host will present at the inputs, soonest first (log entry 3). -/
  input : List HostInput
  /-- The model's own: the open parameters of R9 (log entry 1). -/
  params : Params
  deriving DecidableEq, Repr

/-- The state right after reset: every entry at the value the table of R127 gives it, no host input, and the parameters
of the block as built (log entries 1, 2 and 12). -/
def State.reset : State where
  mode := .letters
  shiftStatus := .lower
  encClosed := false
  count := []
  pkAcc := 0x00#8
  pkOff := 0#3
  pkClosed := false
  fault := false
  faultCause := .none
  faultCmd := 0x0000#16
  cs := []
  pb := []
  diag := []
  rsp := []
  input := []
  params := Config.params

/-- The reasons a step can stop: there are none, and nobody raises one. Every one of the 65,536 words has an outcome in
every state (30_encoding.md R61, 60_exceptions.md R114), and the block's own fault state is a state it goes on from, the
fields FAULT, FAULT_CAUSE and FAULT_CMD (R29, R117, R118). -/
inductive Fault where
  deriving DecidableEq, Repr

/-- The reasons the model gives an instruction no meaning. -/
inductive Refusal where
  /-- An instruction that `exec` rejects by name because it has no meaning yet. Safe. No arm of `exec` raises it now. -/
  | notModelled (mnemonic : String)
  deriving DecidableEq, Repr

end Sys2Proof.Machine
end

