-- ==== Sys2Proof/Machine/Ops.lean ====
section
/-! DEFINITION. The primitives every command's rule is written in (spec 00_scope.md R12): reading and incrementing a
counter, appending to the four streams; taking a fault (60_exceptions.md R117) and the one way out of it, reset
(70_reset_and_hazards.md R127); the order of checks of R114; and what the host presents next. -/

namespace Sys2Proof.Machine

/-! ## The counter array -/

/-- COUNT[k]: the value of the first entry with key `k`, 0 where there is none (R22). -/
def Counters.get : Counters → Nat → Nat
  | [], _ => 0
  | (k', v) :: rest, k => if k' = k then v else Counters.get rest k

/-- The counters without any entry for `k`. -/
def Counters.erase (c : Counters) (k : Nat) : Counters := c.filter fun e => e.1 != k

/-- The entry (k, v) put before the first entry with a greater key. -/
def Counters.insert : Counters → Nat → Nat → Counters
  | [], k, v => [(k, v)]
  | e :: rest, k, v => if k < e.1 then (k, v) :: e :: rest else e :: Counters.insert rest k v

/-- COUNT[k] <- v, in canonical form: an entry that would be 0 is left out. -/
def Counters.set (c : Counters) (k v : Nat) : Counters :=
  if v = 0 then c.erase k else (c.erase k).insert k v

/-- The canonical form of the counters of width `cntW`: keys strictly rising, all of them counter indexes (R22), every
listed value nonzero and of CNT_W bits. -/
def Counters.wf (cntW : Nat) (c : Counters) : Bool :=
  decide (c.Pairwise fun a b => a.1 < b.1) &&
  c.all fun e => decide (e.1 < Config.numKeys) && e.2 != 0 && decide (e.2 < 2 ^ cntW)

/-- `CountInc(k)`: `COUNT[k] <- (COUNT[k] + 1) mod 2^CNT_W` (R12, R25). -/
def State.countInc (s : State) (k : Nat) : State :=
  { s with count := s.count.set k ((s.count.get k + 1) % 2 ^ s.params.cntW) }

/-! ## The output streams -/

/-- `EmitCode(c)` (R12). -/
def State.emitCode (s : State) (c : Code) : State := { s with cs := s.cs ++ [c] }

/-- `EmitByte(b)` (R12). -/
def State.emitByte (s : State) (b : Byte) : State := { s with pb := s.pb ++ [.byte b] }

/-- `EmitEnd()` (R12). -/
def State.emitEnd (s : State) : State := { s with pb := s.pb ++ [.bufferEnd] }

/-- `EmitDiag(ch)` (R12). -/
def State.emitDiag (s : State) (ch : Ch) : State := { s with diag := s.diag ++ [.unencodable ch] }

/-- `Respond(v)` (R12). -/
def State.respond (s : State) (v : Rsp) : State := { s with rsp := s.rsp ++ [v] }

/-! ## The fault state: entry, checks, exit -/

/-- `raise Fault(cause)` for the command word `w` (R117): nothing but the three fault registers changes. -/
def State.raise (s : State) (cause : FaultCause) (w : Word) : State :=
  { s with fault := true, faultCause := cause, faultCmd := w }

/-- Accepting a word that is not legal (R114, R116): ILLEGAL_COMMAND, or nothing in the fault state (R118). -/
def State.illegal (s : State) (w : Word) : State :=
  if s.fault then s else s.raise .illegalCommand w

/-- Accepting a legal encoder or packer command with the word `w` (R114): discarded in the fault state (R118), else
PROTOCOL_MISUSE where it misuses (R115; FAULT_CMD is the command's word, log entry 9), else its own effect. -/
def State.guarded (s : State) (misuse : Bool) (w : Word) (effect : State → State) : State :=
  if s.fault then s else if misuse then s.raise .protocolMisuse w else effect s

/-- An edge with `rst` = 1 (R127, R128), the only way out of the fault state (R120): every entry of R15 at its reset value,
a new session. The parameters are fixed when the block is built (R44, R131); what the host presents next is the host's
(log entry 15). -/
def State.applyReset (s : State) : State := { State.reset with params := s.params, input := s.input }

/-! ## The inputs -/

/-- What the host presents next, and the state with that input taken (R7, R40, R53); none while it presents nothing. -/
def State.nextInput (s : State) : Option (HostInput × State) :=
  match s.input with
  | [] => none
  | e :: rest => some (e, { s with input := rest })

end Sys2Proof.Machine
end

