-- ==== Sys2Proof/Machine/Operands.lean ====
section
/-! DEFINITION. What a command's operand stands for in the block: the counter a character or a KEY names (spec 10_state.md
R22, 42_readback.md R108). CODE is a code as it is (R59). -/

namespace Sys2Proof.Machine

/-- The counter key of a character is the character itself (R22). -/
def charKey (ch : Ch) : Nat := ch.toNat

/-- The counter that a KEY operand names, if KEY is in 0x000 to 0x100 (R58, R108). -/
def keyIndex (key : Key) : Option Nat :=
  if key.toNat ≤ Config.keyShift then some key.toNat else none

end Sys2Proof.Machine
end

