-- ==== Sys2Proof/Machine/CodeTable.lean ====
section
/-! DEFINITION. The combinational half of the encoder: the classifier (spec 40_encoder.md R75 to R83), the letters code
space (R84) and the figures ROM (20_memory.md R43, R85), with the named codes of 30_encoding.md R66 (the spec's own readings in
them: log entry 13). -/

namespace Sys2Proof.Machine

/-! ## The named codes (R66) -/

def codeNull : Code := 0#5
def codePeriod : Code := 27#5
def codeSpace : Code := 28#5
def codeCr : Code := 29#5
def codeShift : Code := 30#5
def codeToggle : Code := 31#5

/-! ## The classifier -/

/-- `is_space` (R75). -/
def isSpace (ch : Ch) : Bool := ch == 0x20#8

/-- `is_cr` (R76): the line feed. -/
def isCr (ch : Ch) : Bool := ch == 0x0A#8

/-- `is_period` (R77). -/
def isPeriod (ch : Ch) : Bool := ch == 0x2E#8

/-- `is_uppercase` (R78). -/
def isUppercase (ch : Ch) : Bool := 0x41 ≤ ch.toNat && ch.toNat ≤ 0x5A

/-- `is_lowercase` (R78). -/
def isLowercase (ch : Ch) : Bool := 0x61 ≤ ch.toNat && ch.toNat ≤ 0x7A

/-- `is_letter` (R78). -/
def isLetter (ch : Ch) : Bool := isUppercase ch || isLowercase ch

/-- The category of a character (R79), a letter with its case, which is defined for letters only (R80). -/
inductive Category where
  | space
  | cr
  | period
  | letter (c : LetterCase)
  | symbol
  deriving DecidableEq, Repr

/-- The category, "chosen in this order" (R79). -/
def classify (ch : Ch) : Category :=
  if isSpace ch then .space
  else if isCr ch then .cr
  else if isPeriod ch then .period
  else if isUppercase ch then .letter .upper
  else if isLowercase ch then .letter .lower
  else .symbol

/-- `upper` of a letter of the given case (R81). -/
def upperOf (ch : Ch) : LetterCase → Ch
  | .lower => ch - 0x20#8
  | .upper => ch

/-- `is_skipped` (R82): the carriage-return byte and the underline. -/
def isSkipped (ch : Ch) : Bool := ch == 0x0D#8 || ch == 0x5F#8

/-! ## The code table -/

/-- `LetterCode` of a letter of the given case: its uppercase ordinal less 64 (R67, R84). -/
def letterCode (ch : Ch) (c : LetterCase) : Code := (upperOf ch c - 64#8).setWidth 5

/-- The code of a character by its place in FIG_PUNCT: place i has code i + 1, and a character that is not there 0. -/
def punctCode (l : List Ch) (ch : Ch) : Code :=
  match l.idxOf? ch with
  | some i => BitVec.ofNat 5 (i + 1)
  | none => 0#5

/-- FIG_ROM[ch] (R43). Only ASCII punctuation can be an entry of FIG_PUNCT (R9), so no other character is looked up there
(log entry 11). -/
def figRom (p : Params) (ch : Ch) : Code :=
  if 0x30 ≤ ch.toNat ∧ ch.toNat ≤ 0x39 then 16#5 + (ch - 0x30#8).setWidth 5
  else if ch = 0x3A#8 then 26#5
  else if ch = 0x3B#8 then 27#5
  else if isAsciiPunct ch then punctCode p.figPunct ch
  else 0#5

/-- `is_encodable_symbol` (R83, R45). -/
def isEncodable (p : Params) (ch : Ch) : Bool := figRom p ch != 0#5

end Sys2Proof.Machine
end

