-- ==== Sys2Proof/Machine/Flags.lean ====
section
/-! DEFINITION. The block's status bits: how each flag reads as bits (spec 10_state.md R18, R20, R29), the STATUS word
(R35), the FAULT_CMD word (R36), and the misuse conditions of 60_exceptions.md R115, which are conditions on the flags
alone. -/

namespace Sys2Proof.Machine

/-- MODE as a bit (R18). -/
def Mode.bit : Mode → BitVec 1
  | .letters => 0#1
  | .figures => 1#1

/-- SHIFT_STATUS as a bit (R20). -/
def LetterCase.bit : LetterCase → BitVec 1
  | .lower => 0#1
  | .upper => 1#1

/-- FAULT_CAUSE as two bits (R29). -/
def FaultCause.bits : FaultCause → BitVec 2
  | .none => 0#2
  | .protocolMisuse => 1#2
  | .illegalCommand => 2#2

/-- The STATUS word, as R35 writes it in pseudocode. -/
def State.statusWord (s : State) : Rsp :=
  (s.pkAcc ++ 0b000000#6 ++ s.faultCause.bits ++ BitVec.ofBool s.fault ++ s.pkOff ++ BitVec.ofBool s.pkClosed ++
    BitVec.ofBool s.encClosed ++ s.shiftStatus.bit ++ s.mode.bit).setWidth 32

/-- The FAULT_CMD word (R36). -/
def State.faultCmdWord (s : State) : Rsp := s.faultCmd.setWidth 32

/-- Misuse of ENC_CHAR (R115). -/
def State.misuseEncChar (s : State) : Bool := s.encClosed

/-- Misuse of ENC_CLOSE (R115). -/
def State.misuseEncClose (s : State) : Bool := s.encClosed

/-- Misuse of PK_ADD (R115). -/
def State.misusePkAdd (s : State) : Bool := !s.encClosed || s.pkClosed

/-- Misuse of PK_CLOSE (R115); a second PK_CLOSE is none (R103). -/
def State.misusePkClose (s : State) : Bool := !s.encClosed

end Sys2Proof.Machine
end

