-- ==== Sys2Proof/Machine/Encoder.lean ====
section
/-! DEFINITION. The symbol encoder's two commands: ENC_CHAR (spec 40_encoder.md R86 to R96) and ENC_CLOSE (R97). -/

namespace Sys2Proof.Machine

/-- The return to Letters mode before a letters-mode character (R89). -/
def State.toLetters (s : State) : State :=
  match s.mode with
  | .letters => s
  | .figures => { s.emitCode codeToggle with mode := .letters }

/-- The entry to Figures mode before a figures code (R95). -/
def State.toFigures (s : State) : State :=
  match s.mode with
  | .letters => { s.emitCode codeToggle with mode := .figures }
  | .figures => s

/-- The SHIFT before a letter whose case is not SHIFT_STATUS, with its count (R92). SHIFT_STATUS is not written. -/
def State.shiftFor (s : State) (c : LetterCase) : State :=
  if c = s.shiftStatus then s else (s.emitCode codeShift).countInc Config.keyShift

/-- The letter path (R92). -/
def State.encLetter (s : State) (ch : Ch) (c : LetterCase) : State :=
  ((s.toLetters.countInc (charKey (upperOf ch c))).shiftFor c).emitCode (letterCode ch c)

/-- The symbol path of a character that is not skipped (R94, R95). -/
def State.encSymbol (s : State) (ch : Ch) : State :=
  if isEncodable s.params ch then (s.countInc (charKey ch)).toFigures.emitCode (figRom s.params ch)
  else (s.countInc (charKey ch)).emitDiag ch

/-- ENC_CHAR's effect, the pseudocode of R86. -/
def State.encChar (s : State) (ch : Ch) : State :=
  match classify ch with
  | .space => s.emitCode codeSpace
  | .cr => s.toLetters.emitCode codeCr
  | .period => (s.toLetters.countInc (charKey 0x2E#8)).emitCode codePeriod
  | .letter c => s.encLetter ch c
  | .symbol => if isSkipped ch then s else s.encSymbol ch

/-- ENC_CLOSE's effect (R97). -/
def State.encClose (s : State) : State := { s.emitCode codeNull with encClosed := true }

/-- ENC_CHAR (R86, R87). -/
def execEncChar (ch : Ch) (s : State) : Host.Outcome State Fault Refusal :=
  .next (s.guarded s.misuseEncChar (encode (.encChar ch)) fun s => s.encChar ch)

/-- ENC_CLOSE (R97). -/
def execEncClose (s : State) : Host.Outcome State Fault Refusal :=
  .next (s.guarded s.misuseEncClose (encode .encClose) State.encClose)

end Sys2Proof.Machine
end

