-- ==== Sys2Proof/Machine/Packer.lean ====
section
/-! DEFINITION. The bit packer's two commands: PK_ADD (spec 41_packer.md R99 to R101) and PK_CLOSE (R102, R103). -/

namespace Sys2Proof.Machine

/-- The 16-bit window W of R99. -/
def pkWindow (acc : BitVec 8) (off : BitVec 3) (code : Code) : BitVec 16 :=
  (acc.setWidth 16 <<< 8) ||| (code.setWidth 16 <<< (11 - off.toNat))

/-- PK_ADD's effect, the pseudocode of R99. -/
def State.pkAdd (s : State) (code : Code) : State :=
  let w := pkWindow s.pkAcc s.pkOff code
  if s.pkOff.toNat + 5 ≥ 8 then
    { s.emitByte (w.extractLsb' 8 8) with pkAcc := w.extractLsb' 0 8, pkOff := s.pkOff - 3#3 }
  else
    { s with pkAcc := w.extractLsb' 8 8, pkOff := s.pkOff + 5#3 }

/-- The partial byte, if there is one, put out by a close (R102). -/
def State.flush (s : State) : State :=
  if s.pkOff.toNat > 0 then s.emitByte s.pkAcc else s

/-- PK_CLOSE's effect, the pseudocode of R102. -/
def State.pkClose (s : State) : State :=
  { s.flush.emitEnd with pkAcc := 0x00#8, pkOff := 0#3, pkClosed := true }

/-- PK_ADD (R99). -/
def execPkAdd (code : Code) (s : State) : Host.Outcome State Fault Refusal :=
  .next (s.guarded s.misusePkAdd (encode (.pkAdd code)) fun s => s.pkAdd code)

/-- PK_CLOSE (R102). -/
def execPkClose (s : State) : Host.Outcome State Fault Refusal :=
  .next (s.guarded s.misusePkClose (encode .pkClose) State.pkClose)

end Sys2Proof.Machine
end

