-- ==== Sys2Proof/Machine/Readback.lean ====
section
/-! DEFINITION. NOP and the three reads (spec 42_readback.md R107 to R111): they execute in every state, the fault state
included (60_exceptions.md R114, R118). -/

namespace Sys2Proof.Machine

/-- NOP (R107). -/
def execNop (s : State) : Host.Outcome State Fault Refusal := .next s

/-- RD_COUNT (R108): the counter, zero-extended. A KEY above 0x100 makes the word illegal (R61, R116); the decoder never
gives such a term, and its word gets what every illegal word gets (log entry 8). -/
def execRdCount (key : Key) (s : State) : Host.Outcome State Fault Refusal :=
  match keyIndex key with
  | some k => .next (s.respond (BitVec.ofNat 32 (s.count.get k)))
  | none => .next (s.illegal (encode (.rdCount key)))

/-- RD_STATUS (R109). -/
def execRdStatus (s : State) : Host.Outcome State Fault Refusal := .next (s.respond s.statusWord)

/-- RD_FAULT (R110). -/
def execRdFault (s : State) : Host.Outcome State Fault Refusal := .next (s.respond s.faultCmdWord)

end Sys2Proof.Machine
end

