-- ==== Sys2Proof/Machine/Dispatch.lean ====
section
/-! DEFINITION. One arm for each command of spec 30_encoding.md R60. -/

namespace Sys2Proof.Machine

def exec (i : Instr) (s : State) : Host.Outcome State Fault Refusal :=
  match i with
  | .nop => Sys2Proof.Machine.execNop s
  | .encChar ch => Sys2Proof.Machine.execEncChar ch s
  | .encClose => Sys2Proof.Machine.execEncClose s
  | .pkAdd code => Sys2Proof.Machine.execPkAdd code s
  | .pkClose => Sys2Proof.Machine.execPkClose s
  | .rdCount key => Sys2Proof.Machine.execRdCount key s
  | .rdStatus => Sys2Proof.Machine.execRdStatus s
  | .rdFault => Sys2Proof.Machine.execRdFault s

end Sys2Proof.Machine
end

