-- ==== Sys2Proof/Machine/Step.lean ====
section
/-! DEFINITION. One step of the block: the host's next input takes effect, whole (spec 00_scope.md R7, 20_memory.md R40). -/

namespace Sys2Proof.Machine

/-- Accepting the command word `w` (R114): a legal word runs its command, which makes the checks on the state; any other
word gets what R116 and R118 give an illegal one. -/
def accept (w : Word) (s : State) : Host.Outcome State Fault Refusal :=
  match decode w with
  | .ok i => exec i s
  | .error _ => .next (s.illegal w)

/-- One step. With nothing presented the block waits and "holds its state unchanged" (R126, R130). -/
def step (s : State) : Host.Outcome State Fault Refusal :=
  match s.nextInput with
  | none => .next s
  | some (.reset, s') => .next s'.applyReset
  | some (.command w, s') => accept w s'

/-- `s` with the command word that the low `nbits` bits of `w` write as what the host presents next (log entry 4). -/
def State.withFetchWord (s : State) (nbits w : Nat) : State :=
  { s with input := .command (tableWord nbits w) :: s.input }

end Sys2Proof.Machine
end

