-- ==== Sys2Proof/Machine/PackFormat.lean ====
section
/-! DEFINITION. The packed byte format (spec 30_encoding.md R71 to R73, 20_memory.md R48), written from the format's own
words and not from the packer's, and the packed buffers of a PB stream (R72). -/

namespace Sys2Proof.Machine

/-- The bits of a word, the most significant first (R48). -/
def bitsMsb {n : Nat} (v : BitVec n) : List Bool := (List.range n).map v.getMsbD

/-- The byte whose bits, the most significant first, are the list's (R48). -/
def byteOfBits (bits : List Bool) : Byte := bits.foldl (fun b x => b <<< 1 ||| (BitVec.ofBool x).setWidth 8) 0#8

/-- A bit string cut into bytes from the left; fewer than 8 bits at the end are left over (R71). -/
def cutBytes : List Bool → List Byte
  | b7 :: b6 :: b5 :: b4 :: b3 :: b2 :: b1 :: b0 :: rest => byteOfBits [b7, b6, b5, b4, b3, b2, b1, b0] :: cutBytes rest
  | _ => []

/-- `c_1[4:0] ++ ... ++ c_n[4:0]` (R71). -/
def codeBits (codes : List Code) : List Bool := codes.flatMap fun c => bitsMsb c

/-- The pad: the least number of zero bits that makes the length a multiple of 8 (R71). -/
def padBits (bits : List Bool) : List Bool := List.replicate ((8 - bits.length % 8) % 8) false

/-- The packed buffer that holds the codes (R71). -/
def packedBuffer (codes : List Code) : List Byte := cutBytes (codeBits codes ++ padBits (codeBits codes))

/-- The bytes of PB since its last `End`, or since reset (R72): the buffer not yet ended. -/
def openBuffer (pb : List PbItem) : List Byte :=
  pb.foldl (fun buf item => match item with
    | .byte b => buf ++ [b]
    | .bufferEnd => []) []

/-- The packed buffers of PB, in order: the bytes between two consecutive `End` items, or before the first (R72). -/
def packedBuffers (pb : List PbItem) : List (List Byte) :=
  (pb.foldl (fun (done, buf) item => match item with
    | .byte b => (done, buf ++ [b])
    | .bufferEnd => (done ++ [buf], [])) (([], []) : List (List Byte) × List Byte)).1

end Sys2Proof.Machine
end

