-- ==== Sys2Proof/Machine/Ports.lean ====
section
/-! DEFINITION. What the output ports of spec 20_memory.md R39 carry for an item of a stream. CS and RSP items move as
they are held, a code on code_data and a word on rsp_data.
Valid and ready as they move in time are not modelled (log entry 7). -/

namespace Sys2Proof.Machine

/-- The level of the `fault` output, which "equals FAULT" (R39, R117). -/
def State.faultPin (s : State) : BitVec 1 := BitVec.ofBool s.fault

/-- What cmd_ready or an output valid carries at an edge at which the host does `e`, where the block would drive `level`:
"While rst = 1, cmd_ready and every output valid are 0" (R128). -/
def gatedByReset (e : Option HostInput) (level : BitVec 1) : BitVec 1 :=
  match e with
  | some .reset => 0#1
  | some (.command _) | none => level

/-- pb_last of an item of PB (R39). -/
def PbItem.pbLast : PbItem → BitVec 1
  | .byte _ => 0#1
  | .bufferEnd => 1#1

/-- pb_data of an item of PB: an `End` moves with 0x00 (R39). -/
def PbItem.pbData : PbItem → Byte
  | .byte b => b
  | .bufferEnd => 0x00#8

/-- diag_data of an item of DIAG (R39). -/
def DiagItem.diagData : DiagItem → Ch
  | .unencodable ch => ch

end Sys2Proof.Machine
end

