-- ==== Sys2Proof/Machine/Session.lean ====
section
/-! DEFINITION. The host's side of a session: the spec's named operands and pseudo-instructions (spec 30_encoding.md R64),
commands presented one after the other (70_reset_and_hazards.md R132), the source's unbounded count of a text (R134),
and how a session has ended (R135). -/

namespace Sys2Proof.Machine

/-- The code operands with a name (R64, R66). -/
def namedCode (name : String) : Option Code :=
  [("NULL", codeNull), ("PERIOD", codePeriod), ("SPACE", codeSpace), ("CR", codeCr), ("SHIFT", codeShift),
   ("TOGGLE", codeToggle)].lookup name

/-- The key operand with a name (R64). -/
def namedKey (name : String) : Option Key := if name = "SHIFT" then some 0x100#9 else none

/-- A quoted character as a character operand (R64): its ASCII code (R11). For a quoted character outside ASCII, to which R11
gives no code, the model takes its Unicode code where that is 0x80 to 0xFF, as ISO 8859-1 has it, and no value above
that (PRESUMED, log entry 17). -/
def charOperand (c : Char) : Option Ch := if c.toNat < 256 then some (BitVec.ofNat 8 c.toNat) else none

/-- `ENC_TEXT` (R64): one ENC_CHAR for each character, in order. -/
def encText (text : List Ch) : List Instr := text.map .encChar

/-- `PACK` (R64): a PK_ADD for each code, in order, and a PK_CLOSE. -/
def pack (codes : List Code) : List Instr := codes.map .pkAdd ++ [.pkClose]

/-- The first half of `SESSION` (R64): the text and ENC_CLOSE. -/
def sessionEncode (text : List Ch) : List Instr := encText text ++ [.encClose]

/-- The second half of `SESSION` (R64): PACK of every code on CS, which the host reads (R132). -/
def sessionPack (s : State) : List Instr := pack s.cs

/-- The host presents these commands, in order, before whatever else it had to present (R132). -/
def State.present (s : State) (commands : List Instr) : State :=
  { s with input := commands.map (fun i => .command (encode i)) ++ s.input }

/-- The counter keys that one character is counted under by the source's rules (R91, R92, R94), where every uppercase
letter takes a SHIFT (R92, SHIFT_STATUS being 0, R20). -/
def countedUnder (ch : Ch) : List Nat :=
  match classify ch with
  | .space | .cr => []
  | .period => [charKey 0x2E#8]
  | .letter .lower => [charKey (upperOf ch .lower)]
  | .letter .upper => [charKey ch, Config.keyShift]
  | .symbol => if isSkipped ch then [] else [charKey ch]

/-- The source's unbounded count of a key over a text (R134). -/
def sourceCount (text : List Ch) (k : Nat) : Nat := (text.flatMap countedUnder).count k

/-- "A session has ended normally when PB has received its first `End` after ENC_CLOSE with FAULT = 0" (R135).
FAULT is tested as it stands now: a session that received its first `End` with FAULT = 0 and took a fault later counts as
ended in failure only (DESIGN CHOICE, log entry 18: both sentences of R135 then apply). -/
def State.endedNormally (s : State) : Bool := s.encClosed && s.pb.contains .bufferEnd && !s.fault

/-- "A session has ended in failure once FAULT = 1" (R135), whatever it had put out before (log entry 18). -/
def State.endedInFailure (s : State) : Bool := s.fault

end Sys2Proof.Machine
end

