-- ==== Sys2Proof/Safety.lean ====
section
/-! DEFINITION. What the spec says of every state reachable from reset (spec 10_state.md R24, R27, R38; 30_encoding.md
R62, R69; 40_encoder.md R98; 00_scope.md R9), as predicates on one state, in the terms the statements use. -/

namespace Sys2Proof.Machine

/-- The mode a receiver of these codes is in, from Letters: every TOGGLE changes it (R98 item 5). -/
def modeAfter (codes : List Code) : Mode :=
  codes.foldl (fun m c => if c = codeToggle then (if m = .letters then .figures else .letters) else m) .letters

/-- The invariants of R38, with the constraint of R9 on the parameters, which they need. -/
structure State.Inv (s : State) : Prop where
  /-- R9. -/
  params : s.params.wf = true
  /-- R22, R25: 257 counters of CNT_W bits, in canonical form. -/
  count : Counters.wf s.params.cntW s.count = true
  /-- R38 item 1. -/
  shiftLower : s.shiftStatus = .lower
  /-- R38 item 2. -/
  beforeClose : s.encClosed = false → s.pkAcc = 0x00#8 ∧ s.pkOff = 0#3 ∧ s.pkClosed = false ∧ s.pb = []
  /-- R38 item 3. -/
  afterPkClose : s.pkClosed = true → s.encClosed = true ∧ s.pkAcc = 0x00#8 ∧ s.pkOff = 0#3
  /-- R38 item 4 (R27). -/
  padZero : s.pkAcc &&& (0xFF#8 >>> s.pkOff.toNat) = 0#8
  /-- R38 item 5. -/
  faultCause : s.fault = false ↔ s.faultCause = .none
  /-- R38 item 5, with R62: FAULT_CMD is 0x0000 exactly while no fault has been taken. -/
  faultCmd : s.fault = false ↔ s.faultCmd = 0x0000#16
  /-- R38 item 6. -/
  nullLast : s.encClosed = true → s.cs.getLast? = some codeNull ∧ s.cs.count codeNull = 1
  /-- R38 item 6: ENC_CHAR never emits NULL. -/
  noNull : s.encClosed = false → codeNull ∉ s.cs
  /-- R38 item 7, without the number of codes: the bits of whole codes are all in PB or in PK_ACC. -/
  wholeCodes : s.pkClosed = false → (8 * (openBuffer s.pb).length + s.pkOff.toNat) % 5 = 0

/-- CS as a receiver reads it: MODE is the mode its codes lead to; CR and SHIFT stand in Letters mode only (R69); a
TOGGLE is followed by a figures code in Figures mode and by a letters-mode code in Letters mode (R98 item 5). -/
structure State.CodeStreamWellModed (s : State) : Prop where
  mode : s.mode = modeAfter s.cs
  lettersOnly : ∀ before c after, s.cs = before ++ c :: after → c = codeCr ∨ c = codeShift → modeAfter before = .letters
  afterToggle : ∀ before after, s.cs = before ++ codeToggle :: after → ∃ c rest, after = c :: rest ∧
    if modeAfter before = .letters then 1 ≤ c.toNat ∧ c.toNat ≤ 27
    else 1 ≤ c.toNat ∧ c.toNat ≤ 30 ∧ c ≠ codeSpace

/-- The keys whose counters "stay 0 for the whole session" (R24): the lowercase letters, space, LF, CR and '_'. -/
def silentKey (k : Nat) : Bool :=
  (0x61 ≤ k && k ≤ 0x7A) || k == 0x20 || k == 0x0A || k == 0x0D || k == 0x5F

/-- R24: the counters of the silent keys are 0. -/
def State.SilentKeysZero (s : State) : Prop := ∀ k, silentKey k = true → s.count.get k = 0

/-- `Misuse(w)` in the terms of R115's table, on the word itself: ENC_CHAR or ENC_CLOSE after ENC_CLOSE, PK_ADD or PK_CLOSE
before it, PK_ADD after PK_CLOSE. -/
def State.Misuse (s : State) (w : Word) : Prop :=
  (opOf w = 0x1#4 ∧ s.encClosed = true) ∨ (opOf w = 0x2#4 ∧ s.encClosed = true) ∨
  (opOf w = 0x3#4 ∧ (s.encClosed = false ∨ s.pkClosed = true)) ∨ (opOf w = 0x4#4 ∧ s.encClosed = false)

/-- The encoder takes characters: no fault has been taken and ENC_CLOSE has not run (R87). -/
def State.EncoderOpen (s : State) : Prop := s.fault = false ∧ s.encClosed = false

/-- The packer takes codes: no fault has been taken, ENC_CLOSE has run and PK_CLOSE has not (R99). -/
def State.PackerOpen (s : State) : Prop := s.fault = false ∧ s.encClosed = true ∧ s.pkClosed = false

end Sys2Proof.Machine
end

