-- ==== Sys2Proof/Certificates/Slice0/Obligations.lean ====
section
/-! DEFINITION. The statements for the provers, one `def Obligations.<Name> : Prop` each; OBLIGATIONS.json lists them. -/

open Sys2Proof Sys2Proof.Machine

/-! ## Command words (spec 30_encoding.md) -/

/-- Words written out bit by bit from R58 and R60 decode to their commands. -/
def Obligations.SampleWordsDecodeAsTheEncodingsSay : Prop :=
  decode 0b0000000000000000#16 = .ok .nop ∧ decode 0b0001000001001000#16 = .ok (.encChar 0x48#8) ∧
  decode 0b0010000000000000#16 = .ok .encClose ∧ decode 0b0011000000011110#16 = .ok (.pkAdd 30#5) ∧
  decode 0b0100000000000000#16 = .ok .pkClose ∧ decode 0b0101000100000000#16 = .ok (.rdCount 0x100#9) ∧
  decode 0b0110000000000000#16 = .ok .rdStatus ∧ decode 0b0111000000000000#16 = .ok .rdFault

/-- Decoding the word of a well-formed command gives the command, every operand at every value (R58 to R60). -/
def Obligations.DecodeOfEncodedCommandIsTheCommand : Prop :=
  ∀ i : Instr, i.wf = true → decode (encode i) = .ok i

/-- A word that decodes is the word of the command it decodes to, and that command is well-formed: no two words stand
for one command (R57 to R61). -/
def Obligations.EncodeOfDecodedWordIsTheWord : Prop :=
  ∀ (w : Word) (i : Instr), decode w = .ok i → encode i = w ∧ i.wf = true

/-- R61: `Legal(w)` case by case, and what accepting any other word does while FAULT = 0 (R116). -/
def Obligations.LegalWordsAreTheCasesOfTheLegalityRule : Prop :=
  ∀ w : Word,
    (legal w = true ↔
      (opOf w ∈ [0x0#4, 0x2#4, 0x4#4, 0x6#4, 0x7#4] ∧ w.extractLsb' 0 12 = 0#12) ∨
      (opOf w = 0x1#4 ∧ w.extractLsb' 8 4 = 0#4) ∨
      (opOf w = 0x3#4 ∧ w.extractLsb' 5 7 = 0#7) ∨
      (opOf w = 0x5#4 ∧ w.extractLsb' 9 3 = 0#3 ∧ (w.extractLsb' 0 9).toNat ≤ 0x100)) ∧
    (legal w = false → ∀ (s : State) (rest : List HostInput), s.input = .command w :: rest → s.fault = false →
      step s = .next { s with input := rest, fault := true, faultCause := .illegalCommand, faultCmd := w })

/-- R60: a word selects a row of the opcode map exactly when it decodes to a command of that row's mnemonic. -/
def Obligations.OpcodeMapSelectsTheDecodedCommand : Prop :=
  ∀ (w : Word) (name : String) (value mask : Word), (name, value, mask) ∈ opcodeMap →
    ((w &&& mask = value ∧ (name = "RD_COUNT" → (w.extractLsb' 0 9).toNat ≤ 0x100)) ↔
      ∃ i, decode w = .ok i ∧ i.mnemonic = name)

/-- R59: an operand is its field of the word, unchanged, and every CODE from 0 to 31 is some word's. -/
def Obligations.OperandsAreTheirFieldsUnchanged : Prop :=
  (∀ w ch, decode w = .ok (.encChar ch) → ch.toNat = w.toNat % 2 ^ 8) ∧
  (∀ w code, decode w = .ok (.pkAdd code) → code.toNat = w.toNat % 2 ^ 5) ∧
  (∀ w key, decode w = .ok (.rdCount key) → key.toNat = w.toNat % 2 ^ 9) ∧
  (∀ code : Code, ∃ w, decode w = .ok (.pkAdd code))

/-- R62: the word that takes a fault is never 0x0000, a misuse has OP 0x1 to 0x4, and an illegal word has OP >= 0x8 or a
nonzero ARG. -/
def Obligations.FaultCausingWordsAreNeverZero : Prop :=
  decode 0x0000#16 = .ok .nop ∧
  ∀ (s t : State) (w : Word) (rest : List HostInput), s.input = .command w :: rest → s.fault = false →
    step s = .next t → t.fault = true →
    w ≠ 0x0000#16 ∧ t.faultCmd ≠ 0x0000#16 ∧
    (t.faultCause = .protocolMisuse → 1 ≤ (opOf w).toNat ∧ (opOf w).toNat ≤ 4) ∧
    (t.faultCause = .illegalCommand → 8 ≤ (opOf w).toNat ∨ argOf w ≠ 0#12)

/-! ## A step (spec 20_memory.md R40, 60_exceptions.md, 70_reset_and_hazards.md) -/

/-- One step takes the host's next input: a word that decodes runs its command on the state with the input taken, and with
nothing presented the state is held (R40, R126). `withFetchWord` presents a command's word as that next input. -/
def Obligations.StepRunsTheDecodedCommand : Prop :=
  (∀ (s : State) (w : Word) (rest : List HostInput) (i : Instr), s.input = .command w :: rest → decode w = .ok i →
    step s = exec i { s with input := rest }) ∧
  (∀ s : State, s.input = [] → step s = .next s) ∧
  (∀ (s : State) (i : Instr), i.wf = true → step (s.withFetchWord 16 (encode i).toNat) = exec i s)

/-- R127: an edge with `rst` gives every entry of the state its reset value, whatever the state was, leaves FIG_ROM as it
is, and these are the values of the state after reset. -/
def Obligations.ResetGivesEveryEntryItsResetValue : Prop :=
  ∀ (s : State) (rest : List HostInput), s.input = .reset :: rest → ∃ t, step s = .next t ∧
    (∀ u, u = t ∨ u = State.reset →
      u.mode = .letters ∧ u.shiftStatus = .lower ∧ u.encClosed = false ∧ (∀ k, u.count.get k = 0) ∧
      u.pkAcc = 0x00#8 ∧ u.pkOff = 0#3 ∧ u.pkClosed = false ∧ u.fault = false ∧ u.faultCause = .none ∧
      u.faultCmd = 0x0000#16 ∧ u.cs = [] ∧ u.pb = [] ∧ u.diag = [] ∧ u.rsp = []) ∧
    (∀ ch, figRom t.params ch = figRom s.params ch) ∧ t.input = rest

/-- R114: the checks in their order, on every accepted word: in the fault state a legal NOP or read executes and every other
word is discarded (R118); else an illegal word raises ILLEGAL_COMMAND, whatever else holds of it; else a misuse raises
PROTOCOL_MISUSE (R115); else the command executes, and takes no fault. -/
def Obligations.AcceptedWordsMeetTheChecksInOrder : Prop :=
  ∀ (s s' : State) (w : Word) (rest : List HostInput), s.input = .command w :: rest → s' = { s with input := rest } →
    (s.fault = true →
      (legal w = true ∧ opOf w ∈ [0x0#4, 0x5#4, 0x6#4, 0x7#4] → ∃ i, decode w = .ok i ∧ step s = exec i s') ∧
      (¬ (legal w = true ∧ opOf w ∈ [0x0#4, 0x5#4, 0x6#4, 0x7#4]) → step s = .next s')) ∧
    (s.fault = false → legal w = false →
      step s = .next { s' with fault := true, faultCause := .illegalCommand, faultCmd := w }) ∧
    (s.fault = false → legal w = true → s.Misuse w →
      step s = .next { s' with fault := true, faultCause := .protocolMisuse, faultCmd := w }) ∧
    (s.fault = false → legal w = true → ¬ s.Misuse w →
      ∃ i t, decode w = .ok i ∧ step s = exec i s' ∧ exec i s' = .next t ∧ t.fault = false)

/-- R115: the misuses, and no others: each of the four commands raises PROTOCOL_MISUSE, with its own word in FAULT_CMD and
nothing else changed, exactly under its conditions, and NOP and the reads never take a fault. -/
def Obligations.MisuseRaisesProtocolMisuseExactly : Prop :=
  ∀ s : State, s.fault = false →
    (∀ (i : Instr) (w : Word) (misuse : Prop),
      (∃ ch : Ch, i = .encChar ch ∧ w.toNat = 0x1000 + ch.toNat ∧ misuse = (s.encClosed = true)) ∨
      (i = .encClose ∧ w = 0x2000#16 ∧ misuse = (s.encClosed = true)) ∨
      (∃ code : Code, i = .pkAdd code ∧ w.toNat = 0x3000 + code.toNat ∧
        misuse = (s.encClosed = false ∨ s.pkClosed = true)) ∨
      (i = .pkClose ∧ w = 0x4000#16 ∧ misuse = (s.encClosed = false)) →
      (misuse → exec i s = .next { s with fault := true, faultCause := .protocolMisuse, faultCmd := w }) ∧
      (¬ misuse → ∃ t, exec i s = .next t ∧ t.fault = false)) ∧
    (∀ i : Instr, i.wf = true → i = .nop ∨ (∃ key, i = .rdCount key) ∨ i = .rdStatus ∨ i = .rdFault →
      ∃ t, exec i s = .next t ∧ t.fault = false)

/-- R117: a step that takes a fault sets FAULT, a cause and FAULT_CMD to the word accepted, the `fault` output follows, and
nothing else changes. -/
def Obligations.FaultEntryChangesOnlyTheFaultRegisters : Prop :=
  ∀ (s t : State) (w : Word) (rest : List HostInput), s.input = .command w :: rest → s.fault = false →
    step s = .next t → t.fault = true →
    (t.faultCause = .protocolMisuse ∨ t.faultCause = .illegalCommand) ∧ t.faultPin = 1#1 ∧
    t = { s with input := rest, fault := true, faultCause := t.faultCause, faultCmd := w }

/-- R120: from the fault state only reset leaves it; whatever word is accepted, the first fault's registers are kept and
nothing but RSP can change, and a word that would take a fault is discarded. -/
def Obligations.OnlyResetLeavesTheFaultState : Prop :=
  ∀ (s t : State) (e : HostInput) (rest : List HostInput), s.input = e :: rest → s.fault = true → step s = .next t →
    (e = .reset → t.fault = false ∧ t.faultCause = .none ∧ t.faultCmd = 0x0000#16) ∧
    (e ≠ .reset → t = { s with input := rest, rsp := t.rsp }) ∧
    (∀ w, e = .command w → legal w = false ∨ s.Misuse w → t = { s with input := rest })

/-- Every step of the model answers a next state, whatever the state and the input: every accepted word has an outcome
(R61, R114), and taking a fault is a next state (R117). That a presented word is always accepted is the model's own choice
(DESIGN CHOICE, log entry 5: unbounded streams); the hardware may wait for ever when its host does not drain an output (R41,
R133), so this says nothing of the hardware's progress. -/
def Obligations.EveryStepAnswersANextState : Prop :=
  ∀ s : State, ∃ t, step s = .next t

/-! ## The code table (spec 20_memory.md R43, 30_encoding.md R70, 40_encoder.md) -/

/-- R43: the content of FIG_ROM, and its 27 nonzero entries pairwise distinct. -/
def Obligations.FigRomHoldsTheFiguresTable : Prop :=
  ∀ p : Params, p.wf = true →
    (∀ (i : Nat) (ch : Ch), p.figPunct[i]? = some ch → (figRom p ch).toNat = i + 1) ∧
    (∀ ch : Ch, 0x30 ≤ ch.toNat → ch.toNat ≤ 0x39 → (figRom p ch).toNat = 16 + (ch.toNat - 0x30)) ∧
    (figRom p 0x3A#8).toNat = 26 ∧ (figRom p 0x3B#8).toNat = 27 ∧
    (∀ ch : Ch, ch ∉ p.figPunct → ¬ (0x30 ≤ ch.toNat ∧ ch.toNat ≤ 0x39) → ch ≠ 0x3A#8 → ch ≠ 0x3B#8 →
      figRom p ch = 0#5) ∧
    (∀ a b : Ch, figRom p a ≠ 0#5 → figRom p a = figRom p b → a = b)

/-- R70: codes 1 to 26 name the 26 letters one to one, and codes 1 to 27 the figures-table characters one to one. -/
def Obligations.EachCodeSpaceNamesItsCharactersOneToOne : Prop :=
  (∀ c : Code, 1 ≤ c.toNat → c.toNat ≤ 26 → ∃! ch : Ch, isUppercase ch = true ∧ letterCode ch .upper = c) ∧
  (∀ ch : Ch, isUppercase ch = true → 1 ≤ (letterCode ch .upper).toNat ∧ (letterCode ch .upper).toNat ≤ 26) ∧
  (∀ p : Params, p.wf = true →
    (∀ c : Code, 1 ≤ c.toNat → c.toNat ≤ 27 → ∃! ch : Ch, figRom p ch = c) ∧
    (∀ ch : Ch, figRom p ch ≠ 0#5 → 1 ≤ (figRom p ch).toNat ∧ (figRom p ch).toNat ≤ 27))

/-! ## ENC_CHAR and ENC_CLOSE (spec 40_encoder.md) -/

/-- R88: the space path. -/
def Obligations.SpaceEmitsSpaceAndNothingElse : Prop :=
  ∀ s : State, s.EncoderOpen → exec (.encChar 0x20#8) s = .next { s with cs := s.cs ++ [28#5] }

/-- R90, after R89: the CR path, on the line feed. -/
def Obligations.LineFeedReturnsToLettersAndEmitsCr : Prop :=
  ∀ s : State, s.EncoderOpen → exec (.encChar 0x0A#8) s = .next { s with
    mode := .letters
    cs := s.cs ++ (if s.mode = .figures then [31#5] else []) ++ [29#5] }

/-- R91, after R89: the period path. -/
def Obligations.PeriodIsCountedAndEmitsPeriod : Prop :=
  ∀ s : State, s.EncoderOpen → ∃ c, exec (.encChar 0x2E#8) s = .next { s with
      mode := .letters
      cs := s.cs ++ (if s.mode = .figures then [31#5] else []) ++ [27#5]
      count := c } ∧
    ∀ k, c.get k = if k = 0x2E then (s.count.get k + 1) % 2 ^ s.params.cntW else s.count.get k

/-- R92, after R89, for a letter of each case: the uppercased letter is counted; where the case is not SHIFT_STATUS a
SHIFT is emitted and counted; then the letter code; and SHIFT_STATUS stays. With SHIFT_STATUS lowercase the SHIFT stands
before exactly the uppercase letters. -/
def Obligations.LetterIsCountedShiftedAndEmitted : Prop :=
  ∀ (s : State) (ch upper : Ch) (case : LetterCase), s.EncoderOpen →
    (0x41 ≤ ch.toNat ∧ ch.toNat ≤ 0x5A ∧ case = .upper ∧ upper = ch) ∨
    (0x61 ≤ ch.toNat ∧ ch.toNat ≤ 0x7A ∧ case = .lower ∧ upper.toNat = ch.toNat - 0x20) →
    ∃ c, exec (.encChar ch) s = .next { s with
        mode := .letters
        cs := s.cs ++ (if s.mode = .figures then [31#5] else []) ++ (if case ≠ s.shiftStatus then [30#5] else []) ++
          [BitVec.ofNat 5 (upper.toNat - 64)]
        count := c } ∧
      ∀ k, c.get k = if k = upper.toNat ∨ (case ≠ s.shiftStatus ∧ k = 0x100)
        then (s.count.get k + 1) % 2 ^ s.params.cntW else s.count.get k

/-- R93: the carriage-return byte and the underline change nothing. -/
def Obligations.SkippedCharactersChangeNothing : Prop :=
  ∀ (s : State) (ch : Ch), s.EncoderOpen → ch = 0x0D#8 ∨ ch = 0x5F#8 → exec (.encChar ch) s = .next s

/-- R94: a symbol that is not skipped is counted, and where FIG_ROM has no code for it, it gives one diagnostic, no code,
and MODE stays. -/
def Obligations.SymbolsAreCountedAndUnencodableOnesReported : Prop :=
  ∀ (s : State) (ch : Ch), s.EncoderOpen → classify ch = .symbol → ch ≠ 0x0D#8 → ch ≠ 0x5F#8 →
    ∃ t, exec (.encChar ch) s = .next t ∧
      (∀ k, t.count.get k = if k = ch.toNat then (s.count.get k + 1) % 2 ^ s.params.cntW else s.count.get k) ∧
      (figRom s.params ch = 0#5 → t = { s with diag := s.diag ++ [.unencodable ch], count := t.count })

/-- R95: an encodable symbol enters Figures mode by a TOGGLE if MODE = Letters, and emits its figures code. -/
def Obligations.EncodableSymbolEntersFiguresAndEmitsItsCode : Prop :=
  ∀ (s : State) (ch : Ch), s.EncoderOpen → classify ch = .symbol → ch ≠ 0x0D#8 → ch ≠ 0x5F#8 →
    figRom s.params ch ≠ 0#5 → ∃ c, exec (.encChar ch) s = .next { s with
        mode := .figures
        cs := s.cs ++ (if s.mode = .letters then [31#5] else []) ++ [figRom s.params ch]
        count := c } ∧
      ∀ k, c.get k = if k = ch.toNat then (s.count.get k + 1) % 2 ^ s.params.cntW else s.count.get k

/-- R89: for a letters-mode character the TOGGLE stands first, exactly where MODE = Figures, and no other TOGGLE follows. -/
def Obligations.ReturnToLettersPrecedesEveryOtherCode : Prop :=
  ∀ (s : State) (ch : Ch), s.EncoderOpen → isCr ch = true ∨ isPeriod ch = true ∨ isLetter ch = true →
    ∃ t out, exec (.encChar ch) s = .next t ∧ t.mode = .letters ∧
      t.cs = s.cs ++ (if s.mode = .figures then [31#5] else []) ++ out ∧ out ≠ [] ∧ 31#5 ∉ out

/-- ENC_CHAR on every character: it completes, it writes MODE, COUNT, CS and DIAG and nothing else (R86), it emits at most
3 codes and 1 diagnostic, never both and never NULL, and 3 codes exactly for an uppercase letter in Figures mode (R96). -/
def Obligations.EncCharWritesOnlyItsOwnStateWithinItsBounds : Prop :=
  ∀ (s : State) (ch : Ch), s.EncoderOpen → s.params.wf = true → s.shiftStatus = .lower →
    ∃ mode count codes diags, exec (.encChar ch) s = .next
        { s with mode := mode, count := count, cs := s.cs ++ codes, diag := s.diag ++ diags } ∧
      codes.length ≤ 3 ∧ diags.length ≤ 1 ∧ (codes = [] ∨ diags = []) ∧ 0#5 ∉ codes ∧
      (codes.length = 3 ↔ isUppercase ch = true ∧ s.mode = .figures)

/-- R97: ENC_CLOSE appends one NULL and closes the encoder, whatever the mode; a second one misuses. -/
def Obligations.EncCloseAppendsOneNullAndCloses : Prop :=
  ∀ s : State, s.fault = false →
    (s.encClosed = false → exec .encClose s = .next { s with cs := s.cs ++ [0#5], encClosed := true }) ∧
    (s.encClosed = true →
      exec .encClose s = .next { s with fault := true, faultCause := .protocolMisuse, faultCmd := 0x2000#16 })

/-! ## The counters (spec 10_state.md R22 to R25) -/

/-- R24: the counters of the lowercase letters, space, LF, CR and '_' stay 0 through every step, and every other counter is
incremented by some character. -/
def Obligations.SilentCountersStayZeroAndOthersCount : Prop :=
  (∀ s t : State, s.SilentKeysZero → step s = .next t → t.SilentKeysZero) ∧
  (∀ k : Nat, k ≤ 0x100 → silentKey k = false → ∃ ch : Ch, ∀ s : State, s.EncoderOpen → s.shiftStatus = .lower →
    ∃ t, exec (.encChar ch) s = .next t ∧ t.count.get k = (s.count.get k + 1) % 2 ^ s.params.cntW)

/-- R134, with R25: encoding any text adds to every counter the source's count of its key, modulo 2^CNT_W, and so adds
exactly the source's count while that stays below 2^CNT_W. -/
def Obligations.CountersAreTheSourceCountsModuloTheWidth : Prop :=
  ∀ (s : State) (text : List Ch), s.EncoderOpen → s.Inv →
    ∃ t : State, Host.Core.run Sys2Proof.core text.length (s.present (encText text)) = .next t ∧
      (∀ k, t.count.get k = (s.count.get k + sourceCount text k) % 2 ^ s.params.cntW) ∧
      (∀ k, s.count.get k + sourceCount text k < 2 ^ s.params.cntW →
        t.count.get k = s.count.get k + sourceCount text k)

/-! ## The packer (spec 41_packer.md) -/

/-- R101: PK_ADD at each offset, bit by bit, on a partial byte whose unfilled bits are 0 (R27). -/
def Obligations.PkAddAtEachOffset : Prop :=
  ∀ (s : State) (code : Code), s.PackerOpen → s.pkAcc &&& (0xFF#8 >>> s.pkOff.toNat) = 0#8 →
    (s.pkOff = 0#3 → exec (.pkAdd code) s = .next { s with pkAcc := code ++ 0#3, pkOff := 5#3 }) ∧
    (s.pkOff = 1#3 → exec (.pkAdd code) s = .next
      { s with pkAcc := s.pkAcc.extractLsb' 7 1 ++ code ++ 0#2, pkOff := 6#3 }) ∧
    (s.pkOff = 2#3 → exec (.pkAdd code) s = .next
      { s with pkAcc := s.pkAcc.extractLsb' 6 2 ++ code ++ 0#1, pkOff := 7#3 }) ∧
    (s.pkOff = 3#3 → exec (.pkAdd code) s = .next
      { s with pb := s.pb ++ [.byte (s.pkAcc.extractLsb' 5 3 ++ code)], pkAcc := 0x00#8, pkOff := 0#3 }) ∧
    (s.pkOff = 4#3 → exec (.pkAdd code) s = .next
      { s with pb := s.pb ++ [.byte (s.pkAcc.extractLsb' 4 4 ++ code.extractLsb' 1 4)]
               pkAcc := code.extractLsb' 0 1 ++ 0#7, pkOff := 1#3 }) ∧
    (s.pkOff = 5#3 → exec (.pkAdd code) s = .next
      { s with pb := s.pb ++ [.byte (s.pkAcc.extractLsb' 3 5 ++ code.extractLsb' 2 3)]
               pkAcc := code.extractLsb' 0 2 ++ 0#6, pkOff := 2#3 }) ∧
    (s.pkOff = 6#3 → exec (.pkAdd code) s = .next
      { s with pb := s.pb ++ [.byte (s.pkAcc.extractLsb' 2 6 ++ code.extractLsb' 3 2)]
               pkAcc := code.extractLsb' 0 3 ++ 0#5, pkOff := 3#3 }) ∧
    (s.pkOff = 7#3 → exec (.pkAdd code) s = .next
      { s with pb := s.pb ++ [.byte (s.pkAcc.extractLsb' 1 7 ++ code.extractLsb' 4 1)]
               pkAcc := code.extractLsb' 0 4 ++ 0#4, pkOff := 4#3 })

/-- R99: PK_ADD in every state that takes it, by the 16-bit window. -/
def Obligations.PkAddShiftsTheCodeIntoTheWindow : Prop :=
  ∀ (s : State) (code : Code) (w : BitVec 16), s.PackerOpen →
    w = (s.pkAcc.setWidth 16 <<< 8) ||| (code.setWidth 16 <<< (11 - s.pkOff.toNat)) →
    exec (.pkAdd code) s = .next (
      if s.pkOff.toNat + 5 ≥ 8 then
        { s with pb := s.pb ++ [.byte (w.extractLsb' 8 8)], pkAcc := w.extractLsb' 0 8
                 pkOff := BitVec.ofNat 3 (s.pkOff.toNat - 3) }
      else { s with pkAcc := w.extractLsb' 8 8, pkOff := BitVec.ofNat 3 (s.pkOff.toNat + 5) })

/-- R100: in the window CODE stands right after the filled bits, the two do not overlap and nothing is shifted out; the
new offset is (PK_OFF + 5) mod 8 and the new partial byte again has zeros below it. -/
def Obligations.PackerWindowIsExact : Prop :=
  ∀ (s : State) (code : Code), s.PackerOpen → s.pkAcc &&& (0xFF#8 >>> s.pkOff.toNat) = 0#8 →
    (s.pkAcc.setWidth 16 <<< 8) &&& (code.setWidth 16 <<< (11 - s.pkOff.toNat)) = 0#16 ∧
    code.toNat * 2 ^ (11 - s.pkOff.toNat) ≤ 0xF800 ∧
    (pkWindow s.pkAcc s.pkOff code).extractLsb' (11 - s.pkOff.toNat) 5 = code ∧
    (pkWindow s.pkAcc s.pkOff code).toNat / 2 ^ (16 - s.pkOff.toNat) = s.pkAcc.toNat / 2 ^ (8 - s.pkOff.toNat) ∧
    ∃ t, exec (.pkAdd code) s = .next t ∧ t.pkOff.toNat = (s.pkOff.toNat + 5) % 8 ∧
      t.pkAcc &&& (0xFF#8 >>> t.pkOff.toNat) = 0#8

/-- R102: PK_CLOSE puts out the partial byte, if there is one, and End, and empties and closes the packer. -/
def Obligations.PkCloseFlushesAndEndsTheBuffer : Prop :=
  ∀ s : State, s.fault = false →
    (s.encClosed = true → exec .pkClose s = .next { s with
      pb := s.pb ++ (if s.pkOff.toNat > 0 then [.byte s.pkAcc] else []) ++ [.bufferEnd]
      pkAcc := 0x00#8, pkOff := 0#3, pkClosed := true }) ∧
    (s.encClosed = false →
      exec .pkClose s = .next { s with fault := true, faultCause := .protocolMisuse, faultCmd := 0x4000#16 })

/-- R103: a PK_CLOSE after a PK_CLOSE is no misuse and gives an empty buffer, in every state that meets the invariants. -/
def Obligations.RepeatedPkCloseEmitsOnlyEnd : Prop :=
  ∀ s : State, s.Inv → s.fault = false → s.pkClosed = true →
    exec .pkClose s = .next { s with pb := s.pb ++ [.bufferEnd] }

/-- R105, first half: after PK_ADD of any codes from the empty packer, the bits of the bytes put out and then the filled
bits of PK_ACC are the bits of the codes. -/
def Obligations.PackerHoldsTheBitsOfItsCodes : Prop :=
  ∀ (s : State) (codes : List Code), s.PackerOpen → s.pkAcc = 0x00#8 → s.pkOff = 0#3 →
    ∃ (t : State) (bytes : List Byte), Host.Core.run Sys2Proof.core codes.length (s.present (codes.map .pkAdd)) = .next t ∧
      t.pb = s.pb ++ bytes.map .byte ∧
      (bytes.flatMap fun b => bitsMsb b) ++ (bitsMsb t.pkAcc).take t.pkOff.toNat = codeBits codes

/-- R105, second half: PACK of any codes from the empty packer puts out the packed buffer of R71 and then End. -/
def Obligations.PackPutsOutThePackedBuffer : Prop :=
  ∀ (s : State) (codes : List Code), s.PackerOpen → s.pkAcc = 0x00#8 → s.pkOff = 0#3 →
    ∃ t : State, Host.Core.run Sys2Proof.core (codes.length + 1) (s.present (pack codes)) = .next t ∧
      t = { s with pb := s.pb ++ (packedBuffer codes).map .byte ++ [.bufferEnd], pkClosed := true }

/-- R73 and R74 of the packed byte format: n codes take ceil(5n / 8) bytes, all of them zero where the codes are, and the
bits of the bytes, cut to 5n, are the bits of the codes. -/
def Obligations.PackedBufferHasItsLengthAndRoundTrips : Prop :=
  ∀ codes : List Code, (packedBuffer codes).length = (5 * codes.length + 7) / 8 ∧
    ((∀ c ∈ codes, c = 0#5) → ∀ b ∈ packedBuffer codes, b = 0x00#8) ∧
    ((packedBuffer codes).flatMap fun b => bitsMsb b).take (5 * codes.length) = codeBits codes

/-- A whole SESSION (R64, R132), from any state whose encoder is open: the text and ENC_CLOSE put codes on CS, the last of
them NULL; PACK of what CS then holds leaves CS as it is and puts out one packed buffer, that of these codes, and End; and
the session has ended normally (R135). -/
def Obligations.SessionPacksItsCodeStreamAndEndsNormally : Prop :=
  ∀ (s : State) (text : List Ch), s.EncoderOpen → s.Inv → ∃ t u : State,
    Host.Core.run Sys2Proof.core (text.length + 1) (s.present (sessionEncode text)) = .next t ∧
    (∃ codes, t.cs = s.cs ++ codes ++ [0#5] ∧ 0#5 ∉ codes ∧ codes.length ≤ 3 * text.length) ∧
    Host.Core.run Sys2Proof.core (t.cs.length + 1) (t.present (sessionPack t)) = .next u ∧
    u.cs = t.cs ∧ u.pb = (packedBuffer t.cs).map .byte ++ [.bufferEnd] ∧ packedBuffers u.pb = [packedBuffer t.cs] ∧
    u.endedNormally = true ∧ u.endedInFailure = false ∧ u.input = s.input

/-! ## NOP and the reads (spec 42_readback.md) -/

/-- NOP changes nothing, in every state (R107). -/
def Obligations.NopChangesNothing : Prop :=
  ∀ s : State, exec .nop s = .next s

/-- RD_COUNT in every state: the counter KEY, zero-extended (R108), exact where the counters are of CNT_W <= 32 bits; and a
KEY above 0x100 gets what an illegal word gets (R61, R114). -/
def Obligations.RdCountAnswersTheCounter : Prop :=
  ∀ (s : State) (key : Key),
    (key.toNat ≤ 0x100 →
      exec (.rdCount key) s = .next { s with rsp := s.rsp ++ [BitVec.ofNat 32 (s.count.get key.toNat)] } ∧
      (s.Inv → (BitVec.ofNat 32 (s.count.get key.toNat)).toNat = s.count.get key.toNat)) ∧
    (0x100 < key.toNat → exec (.rdCount key) s = .next (
      if s.fault = true then s
      else { s with fault := true, faultCause := .illegalCommand, faultCmd := 0x5000#16 ||| key.setWidth 16 }))

/-- R35: RD_STATUS answers, in every state, the word with these fields. -/
def Obligations.RdStatusAnswersTheStatusLayout : Prop :=
  ∀ s : State, ∃ v : Rsp, exec .rdStatus s = .next { s with rsp := s.rsp ++ [v] } ∧
    (v.getLsbD 0 = true ↔ s.mode = .figures) ∧ (v.getLsbD 1 = true ↔ s.shiftStatus = .upper) ∧
    v.getLsbD 2 = s.encClosed ∧ v.getLsbD 3 = s.pkClosed ∧ v.extractLsb' 4 3 = s.pkOff ∧ v.getLsbD 7 = s.fault ∧
    (s.faultCause = .none → v.extractLsb' 8 2 = 0#2) ∧ (s.faultCause = .protocolMisuse → v.extractLsb' 8 2 = 1#2) ∧
    (s.faultCause = .illegalCommand → v.extractLsb' 8 2 = 2#2) ∧
    v.extractLsb' 10 6 = 0#6 ∧ v.extractLsb' 16 8 = s.pkAcc ∧ v.extractLsb' 24 8 = 0#8

/-- R36: RD_FAULT answers FAULT_CMD in bits 15:0 and zeros above, so 0 while FAULT = 0. -/
def Obligations.RdFaultAnswersTheFaultingWord : Prop :=
  ∀ s : State, ∃ v : Rsp, exec .rdFault s = .next { s with rsp := s.rsp ++ [v] } ∧
    v.extractLsb' 0 16 = s.faultCmd ∧ v.extractLsb' 16 16 = 0#16 ∧ (s.Inv → s.fault = false → v = 0x00000000#32)

/-- R111: NOP changes nothing, each read appends one word to RSP and changes nothing else, and what the word is does not
depend on RSP, so that two reads in a row answer the same word. -/
def Obligations.ReadsAppendOneWordAndChangeNothingElse : Prop :=
  (∀ s : State, exec .nop s = .next s) ∧
  ∀ (s : State) (i : Instr), i.wf = true → (∃ key, i = .rdCount key) ∨ i = .rdStatus ∨ i = .rdFault →
    ∃ v : Rsp, ∀ rsp, exec i { s with rsp := rsp } = .next { s with rsp := rsp ++ [v] }

/-! ## The whole machine -/

/-- Every entry of the state is written only by the commands R15 names as its writers; the fault registers by fault entry
alone, while FAULT = 0 (R29); SHIFT_STATUS, the host's inputs and the parameters (FIG_ROM, R44) by no command. -/
def Obligations.EachEntryIsWrittenOnlyByItsWriters : Prop :=
  ∀ (i : Instr) (s t : State), exec i s = .next t →
    t.shiftStatus = s.shiftStatus ∧ t.params = s.params ∧ t.input = s.input ∧
    (t.mode ≠ s.mode ∨ t.count ≠ s.count ∨ t.diag ≠ s.diag → ∃ ch, i = .encChar ch) ∧
    (t.encClosed ≠ s.encClosed → i = .encClose) ∧
    (t.pkAcc ≠ s.pkAcc ∨ t.pkOff ≠ s.pkOff ∨ t.pb ≠ s.pb → (∃ code, i = .pkAdd code) ∨ i = .pkClose) ∧
    (t.pkClosed ≠ s.pkClosed → i = .pkClose) ∧
    (t.cs ≠ s.cs → (∃ ch, i = .encChar ch) ∨ i = .encClose) ∧
    (t.rsp ≠ s.rsp → (∃ key, i = .rdCount key) ∨ i = .rdStatus ∨ i = .rdFault) ∧
    (t.fault ≠ s.fault ∨ t.faultCause ≠ s.faultCause ∨ t.faultCmd ≠ s.faultCmd →
      s.fault = false ∧ t.fault = true ∧ t.faultCmd = encode i)

/-- The streams are append-only between resets (R13), and one command puts out no more than R41 lists. -/
def Obligations.StreamsOnlyGrowAndByNoMoreThanACommandProduces : Prop :=
  ∀ (s t : State) (w : Word) (rest : List HostInput), s.input = .command w :: rest → step s = .next t →
    ∃ codes bytes diags words, t.cs = s.cs ++ codes ∧ t.pb = s.pb ++ bytes ∧ t.diag = s.diag ++ diags ∧
      t.rsp = s.rsp ++ words ∧
      codes.length ≤ (if opOf w = 0x1#4 then 3 else if opOf w = 0x2#4 then 1 else 0) ∧
      diags.length ≤ (if opOf w = 0x1#4 then 1 else 0) ∧
      bytes.length ≤ (if opOf w = 0x3#4 then 1 else if opOf w = 0x4#4 then 2 else 0) ∧
      words.length ≤ (if opOf w ∈ [0x5#4, 0x6#4, 0x7#4] then 1 else 0)

/-- What a command does depends on the registers, the counters and the parameters alone (R37): on two states that agree on
those, it leaves states that agree on those, and puts the same items on each stream, whatever the streams hold. -/
def Obligations.EffectsDependOnTheRegistersAlone : Prop :=
  ∀ (i : Instr) (s t : State) (cs : List Code) (pb : List PbItem) (diag : List DiagItem) (rsp : List Rsp),
    exec i s = .next t → ∃ codes bytes diags words,
      t = { t with cs := s.cs ++ codes, pb := s.pb ++ bytes, diag := s.diag ++ diags, rsp := s.rsp ++ words } ∧
      exec i { s with cs := cs, pb := pb, diag := diag, rsp := rsp } = .next
        { t with cs := cs ++ codes, pb := pb ++ bytes, diag := diag ++ diags, rsp := rsp ++ words }

/-- The invariants of R38 hold right after reset, with the code stream well-moded and the silent counters 0. -/
def Obligations.InvariantsHoldAfterReset : Prop :=
  State.reset.Inv ∧ State.reset.CodeStreamWellModed ∧ State.reset.SilentKeysZero

/-- R38: every step keeps the invariants, from every state that meets them. -/
def Obligations.EveryStepKeepsTheInvariants : Prop :=
  ∀ s t : State, s.Inv → step s = .next t → t.Inv

/-- Every step keeps the code stream well-moded: MODE is the mode its TOGGLEs lead to (R98 item 5), CR and SHIFT stand only
in Letters mode (R69), and every TOGGLE is followed by a code of the mode it enters. -/
def Obligations.EveryStepKeepsTheCodeStreamWellModed : Prop :=
  ∀ s t : State, s.params.wf = true → s.CodeStreamWellModed → step s = .next t → t.CodeStreamWellModed
end

