-- ==== Sys2Proof/Laws/State.lean ====
section
/-! SUPPORT. Each field of the state after each primitive of Machine/Ops.lean: one lemma per field, true by definition. -/

namespace Sys2Proof.Machine

/-! ## countInc -/

@[simp] theorem State.countInc_mode (s : State) (k : Nat) : (s.countInc k).mode = s.mode := rfl
@[simp] theorem State.countInc_shiftStatus (s : State) (k : Nat) : (s.countInc k).shiftStatus = s.shiftStatus := rfl
@[simp] theorem State.countInc_encClosed (s : State) (k : Nat) : (s.countInc k).encClosed = s.encClosed := rfl
@[simp] theorem State.countInc_count (s : State) (k : Nat) : (s.countInc k).count = s.count.set k ((s.count.get k + 1) % 2 ^ s.params.cntW) := rfl
@[simp] theorem State.countInc_pkAcc (s : State) (k : Nat) : (s.countInc k).pkAcc = s.pkAcc := rfl
@[simp] theorem State.countInc_pkOff (s : State) (k : Nat) : (s.countInc k).pkOff = s.pkOff := rfl
@[simp] theorem State.countInc_pkClosed (s : State) (k : Nat) : (s.countInc k).pkClosed = s.pkClosed := rfl
@[simp] theorem State.countInc_fault (s : State) (k : Nat) : (s.countInc k).fault = s.fault := rfl
@[simp] theorem State.countInc_faultCause (s : State) (k : Nat) : (s.countInc k).faultCause = s.faultCause := rfl
@[simp] theorem State.countInc_faultCmd (s : State) (k : Nat) : (s.countInc k).faultCmd = s.faultCmd := rfl
@[simp] theorem State.countInc_cs (s : State) (k : Nat) : (s.countInc k).cs = s.cs := rfl
@[simp] theorem State.countInc_pb (s : State) (k : Nat) : (s.countInc k).pb = s.pb := rfl
@[simp] theorem State.countInc_diag (s : State) (k : Nat) : (s.countInc k).diag = s.diag := rfl
@[simp] theorem State.countInc_rsp (s : State) (k : Nat) : (s.countInc k).rsp = s.rsp := rfl
@[simp] theorem State.countInc_input (s : State) (k : Nat) : (s.countInc k).input = s.input := rfl
@[simp] theorem State.countInc_params (s : State) (k : Nat) : (s.countInc k).params = s.params := rfl

/-! ## emitCode -/

@[simp] theorem State.emitCode_mode (s : State) (c : Code) : (s.emitCode c).mode = s.mode := rfl
@[simp] theorem State.emitCode_shiftStatus (s : State) (c : Code) : (s.emitCode c).shiftStatus = s.shiftStatus := rfl
@[simp] theorem State.emitCode_encClosed (s : State) (c : Code) : (s.emitCode c).encClosed = s.encClosed := rfl
@[simp] theorem State.emitCode_count (s : State) (c : Code) : (s.emitCode c).count = s.count := rfl
@[simp] theorem State.emitCode_pkAcc (s : State) (c : Code) : (s.emitCode c).pkAcc = s.pkAcc := rfl
@[simp] theorem State.emitCode_pkOff (s : State) (c : Code) : (s.emitCode c).pkOff = s.pkOff := rfl
@[simp] theorem State.emitCode_pkClosed (s : State) (c : Code) : (s.emitCode c).pkClosed = s.pkClosed := rfl
@[simp] theorem State.emitCode_fault (s : State) (c : Code) : (s.emitCode c).fault = s.fault := rfl
@[simp] theorem State.emitCode_faultCause (s : State) (c : Code) : (s.emitCode c).faultCause = s.faultCause := rfl
@[simp] theorem State.emitCode_faultCmd (s : State) (c : Code) : (s.emitCode c).faultCmd = s.faultCmd := rfl
@[simp] theorem State.emitCode_cs (s : State) (c : Code) : (s.emitCode c).cs = s.cs ++ [c] := rfl
@[simp] theorem State.emitCode_pb (s : State) (c : Code) : (s.emitCode c).pb = s.pb := rfl
@[simp] theorem State.emitCode_diag (s : State) (c : Code) : (s.emitCode c).diag = s.diag := rfl
@[simp] theorem State.emitCode_rsp (s : State) (c : Code) : (s.emitCode c).rsp = s.rsp := rfl
@[simp] theorem State.emitCode_input (s : State) (c : Code) : (s.emitCode c).input = s.input := rfl
@[simp] theorem State.emitCode_params (s : State) (c : Code) : (s.emitCode c).params = s.params := rfl

/-! ## emitByte -/

@[simp] theorem State.emitByte_mode (s : State) (b : Byte) : (s.emitByte b).mode = s.mode := rfl
@[simp] theorem State.emitByte_shiftStatus (s : State) (b : Byte) : (s.emitByte b).shiftStatus = s.shiftStatus := rfl
@[simp] theorem State.emitByte_encClosed (s : State) (b : Byte) : (s.emitByte b).encClosed = s.encClosed := rfl
@[simp] theorem State.emitByte_count (s : State) (b : Byte) : (s.emitByte b).count = s.count := rfl
@[simp] theorem State.emitByte_pkAcc (s : State) (b : Byte) : (s.emitByte b).pkAcc = s.pkAcc := rfl
@[simp] theorem State.emitByte_pkOff (s : State) (b : Byte) : (s.emitByte b).pkOff = s.pkOff := rfl
@[simp] theorem State.emitByte_pkClosed (s : State) (b : Byte) : (s.emitByte b).pkClosed = s.pkClosed := rfl
@[simp] theorem State.emitByte_fault (s : State) (b : Byte) : (s.emitByte b).fault = s.fault := rfl
@[simp] theorem State.emitByte_faultCause (s : State) (b : Byte) : (s.emitByte b).faultCause = s.faultCause := rfl
@[simp] theorem State.emitByte_faultCmd (s : State) (b : Byte) : (s.emitByte b).faultCmd = s.faultCmd := rfl
@[simp] theorem State.emitByte_cs (s : State) (b : Byte) : (s.emitByte b).cs = s.cs := rfl
@[simp] theorem State.emitByte_pb (s : State) (b : Byte) : (s.emitByte b).pb = s.pb ++ [.byte b] := rfl
@[simp] theorem State.emitByte_diag (s : State) (b : Byte) : (s.emitByte b).diag = s.diag := rfl
@[simp] theorem State.emitByte_rsp (s : State) (b : Byte) : (s.emitByte b).rsp = s.rsp := rfl
@[simp] theorem State.emitByte_input (s : State) (b : Byte) : (s.emitByte b).input = s.input := rfl
@[simp] theorem State.emitByte_params (s : State) (b : Byte) : (s.emitByte b).params = s.params := rfl

/-! ## emitEnd -/

@[simp] theorem State.emitEnd_mode (s : State) : (s.emitEnd).mode = s.mode := rfl
@[simp] theorem State.emitEnd_shiftStatus (s : State) : (s.emitEnd).shiftStatus = s.shiftStatus := rfl
@[simp] theorem State.emitEnd_encClosed (s : State) : (s.emitEnd).encClosed = s.encClosed := rfl
@[simp] theorem State.emitEnd_count (s : State) : (s.emitEnd).count = s.count := rfl
@[simp] theorem State.emitEnd_pkAcc (s : State) : (s.emitEnd).pkAcc = s.pkAcc := rfl
@[simp] theorem State.emitEnd_pkOff (s : State) : (s.emitEnd).pkOff = s.pkOff := rfl
@[simp] theorem State.emitEnd_pkClosed (s : State) : (s.emitEnd).pkClosed = s.pkClosed := rfl
@[simp] theorem State.emitEnd_fault (s : State) : (s.emitEnd).fault = s.fault := rfl
@[simp] theorem State.emitEnd_faultCause (s : State) : (s.emitEnd).faultCause = s.faultCause := rfl
@[simp] theorem State.emitEnd_faultCmd (s : State) : (s.emitEnd).faultCmd = s.faultCmd := rfl
@[simp] theorem State.emitEnd_cs (s : State) : (s.emitEnd).cs = s.cs := rfl
@[simp] theorem State.emitEnd_pb (s : State) : (s.emitEnd).pb = s.pb ++ [.bufferEnd] := rfl
@[simp] theorem State.emitEnd_diag (s : State) : (s.emitEnd).diag = s.diag := rfl
@[simp] theorem State.emitEnd_rsp (s : State) : (s.emitEnd).rsp = s.rsp := rfl
@[simp] theorem State.emitEnd_input (s : State) : (s.emitEnd).input = s.input := rfl
@[simp] theorem State.emitEnd_params (s : State) : (s.emitEnd).params = s.params := rfl

/-! ## emitDiag -/

@[simp] theorem State.emitDiag_mode (s : State) (ch : Ch) : (s.emitDiag ch).mode = s.mode := rfl
@[simp] theorem State.emitDiag_shiftStatus (s : State) (ch : Ch) : (s.emitDiag ch).shiftStatus = s.shiftStatus := rfl
@[simp] theorem State.emitDiag_encClosed (s : State) (ch : Ch) : (s.emitDiag ch).encClosed = s.encClosed := rfl
@[simp] theorem State.emitDiag_count (s : State) (ch : Ch) : (s.emitDiag ch).count = s.count := rfl
@[simp] theorem State.emitDiag_pkAcc (s : State) (ch : Ch) : (s.emitDiag ch).pkAcc = s.pkAcc := rfl
@[simp] theorem State.emitDiag_pkOff (s : State) (ch : Ch) : (s.emitDiag ch).pkOff = s.pkOff := rfl
@[simp] theorem State.emitDiag_pkClosed (s : State) (ch : Ch) : (s.emitDiag ch).pkClosed = s.pkClosed := rfl
@[simp] theorem State.emitDiag_fault (s : State) (ch : Ch) : (s.emitDiag ch).fault = s.fault := rfl
@[simp] theorem State.emitDiag_faultCause (s : State) (ch : Ch) : (s.emitDiag ch).faultCause = s.faultCause := rfl
@[simp] theorem State.emitDiag_faultCmd (s : State) (ch : Ch) : (s.emitDiag ch).faultCmd = s.faultCmd := rfl
@[simp] theorem State.emitDiag_cs (s : State) (ch : Ch) : (s.emitDiag ch).cs = s.cs := rfl
@[simp] theorem State.emitDiag_pb (s : State) (ch : Ch) : (s.emitDiag ch).pb = s.pb := rfl
@[simp] theorem State.emitDiag_diag (s : State) (ch : Ch) : (s.emitDiag ch).diag = s.diag ++ [.unencodable ch] := rfl
@[simp] theorem State.emitDiag_rsp (s : State) (ch : Ch) : (s.emitDiag ch).rsp = s.rsp := rfl
@[simp] theorem State.emitDiag_input (s : State) (ch : Ch) : (s.emitDiag ch).input = s.input := rfl
@[simp] theorem State.emitDiag_params (s : State) (ch : Ch) : (s.emitDiag ch).params = s.params := rfl

/-! ## respond -/

@[simp] theorem State.respond_mode (s : State) (v : Rsp) : (s.respond v).mode = s.mode := rfl
@[simp] theorem State.respond_shiftStatus (s : State) (v : Rsp) : (s.respond v).shiftStatus = s.shiftStatus := rfl
@[simp] theorem State.respond_encClosed (s : State) (v : Rsp) : (s.respond v).encClosed = s.encClosed := rfl
@[simp] theorem State.respond_count (s : State) (v : Rsp) : (s.respond v).count = s.count := rfl
@[simp] theorem State.respond_pkAcc (s : State) (v : Rsp) : (s.respond v).pkAcc = s.pkAcc := rfl
@[simp] theorem State.respond_pkOff (s : State) (v : Rsp) : (s.respond v).pkOff = s.pkOff := rfl
@[simp] theorem State.respond_pkClosed (s : State) (v : Rsp) : (s.respond v).pkClosed = s.pkClosed := rfl
@[simp] theorem State.respond_fault (s : State) (v : Rsp) : (s.respond v).fault = s.fault := rfl
@[simp] theorem State.respond_faultCause (s : State) (v : Rsp) : (s.respond v).faultCause = s.faultCause := rfl
@[simp] theorem State.respond_faultCmd (s : State) (v : Rsp) : (s.respond v).faultCmd = s.faultCmd := rfl
@[simp] theorem State.respond_cs (s : State) (v : Rsp) : (s.respond v).cs = s.cs := rfl
@[simp] theorem State.respond_pb (s : State) (v : Rsp) : (s.respond v).pb = s.pb := rfl
@[simp] theorem State.respond_diag (s : State) (v : Rsp) : (s.respond v).diag = s.diag := rfl
@[simp] theorem State.respond_rsp (s : State) (v : Rsp) : (s.respond v).rsp = s.rsp ++ [v] := rfl
@[simp] theorem State.respond_input (s : State) (v : Rsp) : (s.respond v).input = s.input := rfl
@[simp] theorem State.respond_params (s : State) (v : Rsp) : (s.respond v).params = s.params := rfl

/-! ## raise -/

@[simp] theorem State.raise_mode (s : State) (c : FaultCause) (w : Word) : (s.raise c w).mode = s.mode := rfl
@[simp] theorem State.raise_shiftStatus (s : State) (c : FaultCause) (w : Word) : (s.raise c w).shiftStatus = s.shiftStatus := rfl
@[simp] theorem State.raise_encClosed (s : State) (c : FaultCause) (w : Word) : (s.raise c w).encClosed = s.encClosed := rfl
@[simp] theorem State.raise_count (s : State) (c : FaultCause) (w : Word) : (s.raise c w).count = s.count := rfl
@[simp] theorem State.raise_pkAcc (s : State) (c : FaultCause) (w : Word) : (s.raise c w).pkAcc = s.pkAcc := rfl
@[simp] theorem State.raise_pkOff (s : State) (c : FaultCause) (w : Word) : (s.raise c w).pkOff = s.pkOff := rfl
@[simp] theorem State.raise_pkClosed (s : State) (c : FaultCause) (w : Word) : (s.raise c w).pkClosed = s.pkClosed := rfl
@[simp] theorem State.raise_fault (s : State) (c : FaultCause) (w : Word) : (s.raise c w).fault = true := rfl
@[simp] theorem State.raise_faultCause (s : State) (c : FaultCause) (w : Word) : (s.raise c w).faultCause = c := rfl
@[simp] theorem State.raise_faultCmd (s : State) (c : FaultCause) (w : Word) : (s.raise c w).faultCmd = w := rfl
@[simp] theorem State.raise_cs (s : State) (c : FaultCause) (w : Word) : (s.raise c w).cs = s.cs := rfl
@[simp] theorem State.raise_pb (s : State) (c : FaultCause) (w : Word) : (s.raise c w).pb = s.pb := rfl
@[simp] theorem State.raise_diag (s : State) (c : FaultCause) (w : Word) : (s.raise c w).diag = s.diag := rfl
@[simp] theorem State.raise_rsp (s : State) (c : FaultCause) (w : Word) : (s.raise c w).rsp = s.rsp := rfl
@[simp] theorem State.raise_input (s : State) (c : FaultCause) (w : Word) : (s.raise c w).input = s.input := rfl
@[simp] theorem State.raise_params (s : State) (c : FaultCause) (w : Word) : (s.raise c w).params = s.params := rfl

/-! ## applyReset -/

@[simp] theorem State.applyReset_mode (s : State) : s.applyReset.mode = .letters := rfl
@[simp] theorem State.applyReset_shiftStatus (s : State) : s.applyReset.shiftStatus = .lower := rfl
@[simp] theorem State.applyReset_encClosed (s : State) : s.applyReset.encClosed = false := rfl
@[simp] theorem State.applyReset_count (s : State) : s.applyReset.count = [] := rfl
@[simp] theorem State.applyReset_pkAcc (s : State) : s.applyReset.pkAcc = 0#8 := rfl
@[simp] theorem State.applyReset_pkOff (s : State) : s.applyReset.pkOff = 0#3 := rfl
@[simp] theorem State.applyReset_pkClosed (s : State) : s.applyReset.pkClosed = false := rfl
@[simp] theorem State.applyReset_fault (s : State) : s.applyReset.fault = false := rfl
@[simp] theorem State.applyReset_faultCause (s : State) : s.applyReset.faultCause = .none := rfl
@[simp] theorem State.applyReset_faultCmd (s : State) : s.applyReset.faultCmd = 0#16 := rfl
@[simp] theorem State.applyReset_cs (s : State) : s.applyReset.cs = [] := rfl
@[simp] theorem State.applyReset_pb (s : State) : s.applyReset.pb = [] := rfl
@[simp] theorem State.applyReset_diag (s : State) : s.applyReset.diag = [] := rfl
@[simp] theorem State.applyReset_rsp (s : State) : s.applyReset.rsp = [] := rfl
@[simp] theorem State.applyReset_input (s : State) : s.applyReset.input = s.input := rfl
@[simp] theorem State.applyReset_params (s : State) : s.applyReset.params = s.params := rfl

end Sys2Proof.Machine
end

