-- ==== Sys2Proof/Laws/Counters.lean ====
section
/-! SUPPORT. The counter array: a read after a write (unconditional), and every write keeps the canonical form. -/

namespace Sys2Proof.Machine

@[simp] theorem Counters.get_nil (k : Nat) : Counters.get [] k = 0 := rfl

theorem Counters.get_cons (e : Nat × Nat) (rest : Counters) (k : Nat) :
    Counters.get (e :: rest) k = if e.1 = k then e.2 else Counters.get rest k := rfl

theorem Counters.get_erase (c : Counters) (k k' : Nat) :
    (c.erase k).get k' = if k' = k then 0 else c.get k' := by
  induction c with
  | nil => simp [Counters.erase]
  | cons e rest ih =>
    simp only [Counters.erase, List.filter_cons, Counters.get_cons] at ih ⊢
    by_cases h : e.1 = k <;> by_cases h' : k' = k <;> simp_all [Counters.get_cons]
    all_goals intro heq; simp_all

theorem Counters.get_insert (c : Counters) (k v k' : Nat) (h : c.get k = 0) (hk : ∀ e ∈ c, e.1 ≠ k) :
    (c.insert k v).get k' = if k' = k then v else c.get k' := by
  induction c with
  | nil => simp only [Counters.insert, Counters.get_cons, Counters.get_nil, eq_comm]
  | cons e rest ih =>
    have hne : e.1 ≠ k := hk e (by simp)
    have hrest : Counters.get rest k = 0 := by simpa [Counters.get_cons, hne] using h
    have := ih hrest fun e he => hk e (by simp [he])
    simp only [Counters.insert]
    split
    · simp only [Counters.get_cons, eq_comm]
    · simp only [Counters.get_cons, this]
      by_cases h' : k' = k
      · simp [h', hne]
      · simp [h']

theorem Counters.ne_of_mem_erase {c : Counters} {k : Nat} {e : Nat × Nat} (h : e ∈ c.erase k) : e.1 ≠ k := by
  simpa using (List.mem_filter.mp h).2

/-- A read after a write: the value written at its key, and what was there at every other key. -/
@[simp] theorem Counters.get_set (c : Counters) (k v k' : Nat) :
    (c.set k v).get k' = if k' = k then v else c.get k' := by
  unfold Counters.set
  split
  · next h => simp [Counters.get_erase, h]
  · rw [Counters.get_insert _ _ _ _ (by simp [Counters.get_erase]) fun e he => Counters.ne_of_mem_erase he,
      Counters.get_erase]
    split <;> simp_all

theorem Counters.mem_insert {c : Counters} {k v : Nat} {e : Nat × Nat} :
    e ∈ c.insert k v ↔ e = (k, v) ∨ e ∈ c := by
  induction c with
  | nil => simp [Counters.insert]
  | cons a rest ih =>
    simp only [Counters.insert]
    split
    · simp
    · simp [ih]; tauto

theorem Counters.insert_pairwise {c : Counters} {k v : Nat} (h : c.Pairwise fun a b => a.1 < b.1)
    (hk : ∀ e ∈ c, e.1 ≠ k) : (c.insert k v).Pairwise fun a b => a.1 < b.1 := by
  induction c with
  | nil => simp [Counters.insert]
  | cons a rest ih =>
    rw [List.pairwise_cons] at h
    have ha := hk a (by simp)
    simp only [Counters.insert]
    split
    · next hlt =>
      refine List.pairwise_cons.mpr ⟨?_, List.pairwise_cons.mpr h⟩
      intro e he
      rcases List.mem_cons.mp he with rfl | he
      · exact hlt
      · exact hlt.trans (h.1 e he)
    · refine List.pairwise_cons.mpr ⟨?_, ih h.2 fun e he => hk e (by simp [he])⟩
      intro e he
      rcases Counters.mem_insert.mp he with rfl | he
      · show a.1 < k; omega
      · exact h.1 e he

theorem Counters.wf_iff {cntW : Nat} {c : Counters} : Counters.wf cntW c = true ↔
    (c.Pairwise fun a b => a.1 < b.1) ∧ ∀ e ∈ c, e.1 < Config.numKeys ∧ e.2 ≠ 0 ∧ e.2 < 2 ^ cntW := by
  simp [Counters.wf, and_assoc]

/-- A write of a CNT_W-bit value to a counter keeps the canonical form. -/
theorem Counters.wf_set {cntW : Nat} {c : Counters} {k v : Nat} (h : Counters.wf cntW c = true)
    (hk : k < Config.numKeys) (hv : v < 2 ^ cntW) : Counters.wf cntW (c.set k v) = true := by
  rw [Counters.wf_iff] at h ⊢
  have herase : (c.erase k).Pairwise fun a b => a.1 < b.1 := h.1.sublist List.filter_sublist
  have hmem : ∀ e ∈ c.erase k, e ∈ c := fun e he => (List.mem_filter.mp he).1
  unfold Counters.set
  split
  · exact ⟨herase, fun e he => h.2 e (hmem e he)⟩
  · next hne =>
    refine ⟨Counters.insert_pairwise herase fun e he => Counters.ne_of_mem_erase he, fun e he => ?_⟩
    rcases Counters.mem_insert.mp he with rfl | he
    · exact ⟨hk, hne, hv⟩
    · exact h.2 e (hmem e he)

/-- A counter in canonical form is of CNT_W bits. -/
theorem Counters.get_lt {cntW : Nat} {c : Counters} (h : Counters.wf cntW c = true) (k : Nat) :
    c.get k < 2 ^ cntW := by
  rw [Counters.wf_iff] at h
  replace h := h.2
  induction c with
  | nil => simp
  | cons e rest ih =>
    rw [Counters.get_cons]
    split
    · exact (h e (by simp)).2.2
    · exact ih fun e he => h e (by simp [he])

/-- Equal reads make equal counters, in canonical form: the form is canonical. -/
theorem Counters.get_eq_of_mem {c : Counters} {e : Nat × Nat} (h : c.Pairwise fun a b => a.1 < b.1) (he : e ∈ c) :
    c.get e.1 = e.2 := by
  induction c with
  | nil => simp at he
  | cons a rest ih =>
    rw [List.pairwise_cons] at h
    rw [Counters.get_cons]
    rcases List.mem_cons.mp he with rfl | he
    · simp
    · have := h.1 e he
      rw [if_neg (by omega), ih h.2 he]

/-- What one increment does to every counter (R25). -/
theorem State.countInc_get (s : State) (k k' : Nat) : (s.countInc k).count.get k' =
    if k' = k then (s.count.get k' + 1) % 2 ^ s.params.cntW else s.count.get k' := by
  simp only [State.countInc_count, Counters.get_set]; split <;> simp_all

theorem State.countInc_wf (s : State) (k : Nat) (hk : k < Config.numKeys)
    (h : Counters.wf s.params.cntW s.count = true) :
    Counters.wf (s.countInc k).params.cntW (s.countInc k).count = true :=
  Counters.wf_set h hk (Nat.mod_lt _ (by positivity))

end Sys2Proof.Machine
end

