-- ==== Sys2Proof/Laws/Decode.lean ====
section
/-! SUPPORT. Command words as numbers: the fields of a word, the word of each command, and what each command's words
decode from. -/

namespace Sys2Proof

/-! ## The fields of a word as numbers (R57, R59) -/

theorem opOf_toNat (w : Word) : (opOf w).toNat = w.toNat / 4096 := by
  have := w.isLt; simp [opOf, Nat.shiftRight_eq_div_pow]; omega

theorem argOf_toNat (w : Word) : (argOf w).toNat = w.toNat % 4096 := by simp [argOf]

theorem chOf_toNat (w : Word) : (chOf w).toNat = w.toNat % 256 := by simp [chOf]

theorem codeOf_toNat (w : Word) : (codeOf w).toNat = w.toNat % 32 := by simp [codeOf]

theorem keyOf_toNat (w : Word) : (keyOf w).toNat = w.toNat % 512 := by simp [keyOf]

/-! ## The word of each command as a number (R60) -/

theorem toNat_append_add {m n : Nat} (x : BitVec m) (y : BitVec n) : (x ++ y).toNat = x.toNat * 2 ^ n + y.toNat := by
  rw [BitVec.toNat_append, ← Nat.shiftLeft_add_eq_or_of_lt y.isLt, Nat.shiftLeft_eq]

/-- The number of a command's word. -/
theorem encode_toNat (i : Instr) : (encode i).toNat = match i with
    | .nop => 0x0000
    | .encChar ch => 0x1000 + ch.toNat
    | .encClose => 0x2000
    | .pkAdd code => 0x3000 + code.toNat
    | .pkClose => 0x4000
    | .rdCount key => 0x5000 + key.toNat
    | .rdStatus => 0x6000
    | .rdFault => 0x7000 := by
  cases i with
  | encChar _ => exact toNat_append_add _ _
  | pkAdd _ => exact toNat_append_add _ _
  | rdCount _ => exact toNat_append_add _ _
  | _ => rfl

/-! ## What decodes to what (R61) -/

theorem reservedZero_ok {n : Nat} {i j : Instr} : reservedZero n i = .ok j ↔ n = 0 ∧ i = j := by
  unfold reservedZero; split <;> simp_all

theorem decodeKeyed_ok {w : Word} {j : Instr} :
    decodeKeyed w = .ok j ↔ (argOf w).toNat / 2 ^ 9 = 0 ∧ (keyOf w).toNat ≤ Config.keyShift ∧ .rdCount (keyOf w) = j := by
  unfold decodeKeyed; split <;> (try split) <;> simp_all

/-- The words that decode, and what to: the eight rows of the opcode map, by the number of the word. -/
theorem decode_ok_iff {w : Word} {i : Instr} : decode w = .ok i ↔
    (w.toNat = 0x0000 ∧ i = .nop) ∨ (w.toNat / 256 = 0x10 ∧ i = .encChar (chOf w)) ∨
    (w.toNat = 0x2000 ∧ i = .encClose) ∨ (w.toNat / 32 = 0x180 ∧ i = .pkAdd (codeOf w)) ∨
    (w.toNat = 0x4000 ∧ i = .pkClose) ∨
    (w.toNat / 512 = 0x28 ∧ w.toNat % 512 ≤ 0x100 ∧ i = .rdCount (keyOf w)) ∨
    (w.toNat = 0x6000 ∧ i = .rdStatus) ∨ (w.toNat = 0x7000 ∧ i = .rdFault) := by
  have hop := opOf_toNat w
  have harg := argOf_toNat w
  have hkey := keyOf_toNat w
  have := w.isLt
  unfold decode
  split
  case h_9 h0 h1 h2 h3 h4 h5 h6 h7 =>
    simp only [imp_false, hop] at h0 h1 h2 h3 h4 h5 h6 h7
    refine ⟨fun h => (nomatch h), fun h => ?_⟩
    rcases h with h | h | h | h | h | h | h | h <;> omega
  all_goals
    simp only [reservedZero_ok, decodeKeyed_ok, Config.keyShift, harg, hkey]
    constructor
    · intro h
      first | obtain ⟨h, rfl⟩ := h | obtain ⟨h, h', rfl⟩ := h
      all_goals simp only [reduceCtorEq, and_false, false_or, or_false, and_true]; omega
    · intro h
      rcases h with h | h | h | h | h | h | h | h <;>
        first | omega | exact ⟨by omega, h.2.symm⟩ | exact ⟨by omega, by omega, h.2.2.symm⟩

theorem legal_iff {w : Word} : legal w = true ↔ ∃ i, decode w = .ok i := by
  unfold legal; split <;> simp_all

theorem legal_eq_false_iff {w : Word} : legal w = false ↔ ∃ e, decode w = .error e := by
  unfold legal; split <;> simp_all

end Sys2Proof
end

