-- ==== Sys2Proof/Laws/Ops.lean ====
section
/-! SUPPORT. What the shared operations can do, said once: the order of checks, an illegal word, the next input, and
the cases of a step. -/

namespace Sys2Proof.Machine

theorem State.guarded_fault {s : State} (misuse : Bool) (w : Word) (effect : State → State) (h : s.fault = true) :
    s.guarded misuse w effect = s := by
  simp [State.guarded, h]

theorem State.guarded_misuse {s : State} (w : Word) (effect : State → State) (h : s.fault = false) :
    s.guarded true w effect = s.raise .protocolMisuse w := by
  simp [State.guarded, h]

theorem State.guarded_run {s : State} (w : Word) (effect : State → State) (h : s.fault = false) :
    s.guarded false w effect = effect s := by
  simp [State.guarded, h]

/-- The three outcomes of an encoder or packer command (R114). -/
theorem State.guarded_cases (s : State) (misuse : Bool) (w : Word) (effect : State → State) :
    (s.fault = true ∧ s.guarded misuse w effect = s) ∨
    (s.fault = false ∧ misuse = true ∧ s.guarded misuse w effect = s.raise .protocolMisuse w) ∨
    (s.fault = false ∧ misuse = false ∧ s.guarded misuse w effect = effect s) := by
  unfold State.guarded
  cases s.fault <;> cases misuse <;> simp

theorem State.illegal_cases (s : State) (w : Word) :
    (s.fault = true ∧ s.illegal w = s) ∨ (s.fault = false ∧ s.illegal w = s.raise .illegalCommand w) := by
  unfold State.illegal
  cases s.fault <;> simp

theorem State.nextInput_nil {s : State} (h : s.input = []) : s.nextInput = none := by
  simp [State.nextInput, h]

theorem State.nextInput_cons {s : State} {e : HostInput} {rest : List HostInput} (h : s.input = e :: rest) :
    s.nextInput = some (e, { s with input := rest }) := by
  simp [State.nextInput, h]

/-- A step with a legal word next. -/
theorem step_command {s : State} {w : Word} {rest : List HostInput} {i : Instr} (h : s.input = .command w :: rest)
    (hd : decode w = .ok i) : step s = exec i { s with input := rest } := by
  simp [step, State.nextInput_cons h, accept, hd]

/-- A step with an illegal word next. -/
theorem step_illegal {s : State} {w : Word} {rest : List HostInput} {e : Illegal} (h : s.input = .command w :: rest)
    (hd : decode w = .error e) : step s = .next (State.illegal { s with input := rest } w) := by
  simp [step, State.nextInput_cons h, accept, hd]

/-- A step with reset next. -/
theorem step_reset {s : State} {rest : List HostInput} (h : s.input = .reset :: rest) :
    step s = .next (State.applyReset { s with input := rest }) := by
  simp [step, State.nextInput_cons h]

/-- A step with nothing next. -/
theorem step_wait {s : State} (h : s.input = []) : step s = .next s := by
  simp [step, State.nextInput_nil h]

/-- Everything a step that answers a next state can have done. -/
theorem step_cases {s t : State} (h : step s = .next t) :
    (s.input = [] ∧ t = s) ∨
    (∃ rest, s.input = .reset :: rest ∧ t = State.applyReset { s with input := rest }) ∨
    (∃ w rest i, s.input = .command w :: rest ∧ decode w = .ok i ∧ exec i { s with input := rest } = .next t) ∨
    (∃ w rest e, s.input = .command w :: rest ∧ decode w = .error e ∧ t = State.illegal { s with input := rest } w) := by
  rcases hi : s.input with _ | ⟨_ | _, rest⟩
  · rw [step_wait hi] at h; cases h; exact .inl ⟨rfl, rfl⟩
  · next w =>
    rcases hd : decode w with e | i
    · rw [step_illegal hi hd] at h; cases h; exact .inr (.inr (.inr ⟨w, rest, e, rfl, hd, rfl⟩))
    · rw [step_command hi hd] at h; exact .inr (.inr (.inl ⟨w, rest, i, rfl, hd, h⟩))
  · rw [step_reset hi] at h; cases h; exact .inr (.inl ⟨rest, rfl, rfl⟩)

end Sys2Proof.Machine
end

