-- ==== Sys2Proof/Laws/Encoder.lean ====
section
/-! SUPPORT. The classifier's categories, the ranges of the code table, and ENC_CHAR's effect in one equation: the mode,
the codes, the diagnostics and the counted keys of a character as functions of that character and the registers. -/

namespace Sys2Proof.Machine

/-! ## The classifier and the code table -/

theorem classify_space {ch : Ch} : classify ch = .space ↔ ch = 0x20#8 := by revert ch; decide

theorem classify_cr {ch : Ch} : classify ch = .cr ↔ ch = 0x0A#8 := by revert ch; decide

theorem classify_period {ch : Ch} : classify ch = .period ↔ ch = 0x2E#8 := by revert ch; decide

theorem classify_upper {ch : Ch} : classify ch = .letter .upper ↔ isUppercase ch = true := by revert ch; decide

theorem classify_lower {ch : Ch} : classify ch = .letter .lower ↔ isLowercase ch = true := by revert ch; decide

theorem letterCode_range {ch : Ch} {c : LetterCase} (h : classify ch = .letter c) :
    1 ≤ (letterCode ch c).toNat ∧ (letterCode ch c).toNat ≤ 26 := by
  cases c <;> revert ch <;> decide

theorem upperOf_range {ch : Ch} {c : LetterCase} (h : classify ch = .letter c) :
    0x41 ≤ (upperOf ch c).toNat ∧ (upperOf ch c).toNat ≤ 0x5A := by
  cases c <;> revert ch <;> decide

theorem Params.wf_iff {p : Params} : p.wf = true ↔ (1 ≤ p.cntW ∧ p.cntW ≤ 32) ∧ p.figPunct.length = 15 ∧
    (∀ ch ∈ p.figPunct, figPunctEntry ch = true) ∧ p.figPunct.Nodup := by
  simp [Params.wf, figPunctLegal, and_assoc]

/-- FIG_ROM holds no code above 27 (R43). -/
theorem figRom_le {p : Params} (h : p.wf = true) (ch : Ch) : (figRom p ch).toNat ≤ 27 := by
  obtain ⟨-, hlen, -, -⟩ := Params.wf_iff.mp h
  unfold figRom
  split
  · simp only [BitVec.toNat_add, BitVec.toNat_setWidth, BitVec.toNat_sub, BitVec.toNat_ofNat]; omega
  split
  · decide
  split
  · decide
  split
  · unfold punctCode
    split
    · next i hi =>
      obtain ⟨hi, -⟩ := List.idxOf?_eq_some_iff.mp hi
      simp only [BitVec.toNat_ofNat]; omega
    · decide
  · decide

/-! ## The mode changes -/

/-- The TOGGLE before a code that needs the other mode than `m`. -/
def toggleFrom (m other : Mode) : List Code := if m = other then [codeToggle] else []

theorem State.toLetters_eq (s : State) :
    s.toLetters = { s with mode := .letters, cs := s.cs ++ toggleFrom s.mode .figures } := by
  obtain ⟨m⟩ := s; cases m <;> simp [State.toLetters, State.emitCode, toggleFrom]

theorem State.toFigures_eq (s : State) :
    s.toFigures = { s with mode := .figures, cs := s.cs ++ toggleFrom s.mode .letters } := by
  obtain ⟨m⟩ := s; cases m <;> simp [State.toFigures, State.emitCode, toggleFrom]

/-! ## ENC_CHAR in one equation -/

/-- The codes ENC_CHAR emits for a character (R86). -/
def charCodes (p : Params) (m : Mode) (shift : LetterCase) (ch : Ch) : List Code :=
  match classify ch with
  | .space => [codeSpace]
  | .cr => toggleFrom m .figures ++ [codeCr]
  | .period => toggleFrom m .figures ++ [codePeriod]
  | .letter c => toggleFrom m .figures ++ (if c = shift then [] else [codeShift]) ++ [letterCode ch c]
  | .symbol => if isSkipped ch || !isEncodable p ch then [] else toggleFrom m .letters ++ [figRom p ch]

/-- MODE after ENC_CHAR (R96). -/
def charMode (p : Params) (m : Mode) (ch : Ch) : Mode :=
  match classify ch with
  | .space => m
  | .cr | .period | .letter _ => .letters
  | .symbol => if isSkipped ch || !isEncodable p ch then m else .figures

/-- The diagnostics ENC_CHAR emits for a character (R94). -/
def charDiags (p : Params) (ch : Ch) : List DiagItem :=
  match classify ch with
  | .symbol => if isSkipped ch || isEncodable p ch then [] else [.unencodable ch]
  | .space | .cr | .period | .letter _ => []

/-- The counters ENC_CHAR increments for a character (R91, R92, R94). -/
def charKeys (shift : LetterCase) (ch : Ch) : List Nat :=
  match classify ch with
  | .space | .cr => []
  | .period => [0x2E]
  | .letter c => (upperOf ch c).toNat :: if c = shift then [] else [Config.keyShift]
  | .symbol => if isSkipped ch then [] else [ch.toNat]

/-- The counters after one `CountInc` of each key. -/
def countAll (cntW : Nat) (keys : List Nat) (c : Counters) : Counters :=
  keys.foldl (fun c k => c.set k ((c.get k + 1) % 2 ^ cntW)) c

/-- ENC_CHAR's effect (R86): four functions of the character and the registers, and nothing else. -/
theorem State.encChar_eq (s : State) (ch : Ch) : s.encChar ch = { s with
    mode := charMode s.params s.mode ch
    cs := s.cs ++ charCodes s.params s.mode s.shiftStatus ch
    diag := s.diag ++ charDiags s.params ch
    count := countAll s.params.cntW (charKeys s.shiftStatus ch) s.count } := by
  unfold State.encChar charMode charCodes charDiags charKeys countAll
  cases hc : classify ch with
  | space => simp [State.emitCode]
  | cr => simp [State.toLetters_eq, State.emitCode]
  | period => simp [State.toLetters_eq, State.emitCode, State.countInc, charKey]
  | letter c =>
    by_cases h : c = s.shiftStatus <;>
      simp [State.encLetter, State.shiftFor, State.toLetters_eq, State.emitCode, State.countInc, charKey, h]
  | symbol =>
    by_cases h : isSkipped ch = true <;> by_cases h' : isEncodable s.params ch = true <;>
      simp [State.encSymbol, State.toFigures_eq, State.emitCode, State.emitDiag, State.countInc, charKey, h, h']

/-- The keys one character counts are distinct. -/
theorem charKeys_nodup (shift : LetterCase) (ch : Ch) : (charKeys shift ch).Nodup := by
  unfold charKeys
  split
  · simp
  · simp
  · simp
  · next c hc =>
    have := upperOf_range hc
    by_cases h : c = shift <;> simp [h, Config.keyShift]; omega
  · split <;> simp

/-- Every key a character counts is a counter index. -/
theorem charKeys_lt {shift : LetterCase} {ch : Ch} {k : Nat} (h : k ∈ charKeys shift ch) : k < Config.numKeys := by
  unfold charKeys at h
  have hch := ch.isLt
  split at h
  · simp at h
  · simp at h
  · simp at h; simp [h, Config.numKeys]
  · next c hc =>
    have := (upperOf ch c).isLt
    split at h <;> simp [Config.keyShift] at h <;> simp only [Config.numKeys] <;> omega
  · split at h <;> simp at h
    simp only [Config.numKeys]; omega

theorem countAll_get_of_notMem {cntW : Nat} {keys : List Nat} {c : Counters} {k : Nat} (h : k ∉ keys) :
    (countAll cntW keys c).get k = c.get k := by
  induction keys generalizing c with
  | nil => rfl
  | cons a rest ih =>
    simp only [List.mem_cons, not_or] at h
    simp only [countAll, List.foldl_cons] at ih ⊢
    rw [ih h.2, Counters.get_set, if_neg h.1]

/-- Counting distinct keys adds 1, modulo 2^CNT_W, to each of them and nothing to any other (R25). -/
theorem countAll_get {cntW : Nat} {keys : List Nat} {c : Counters} (k : Nat) (h : keys.Nodup) :
    (countAll cntW keys c).get k = if k ∈ keys then (c.get k + 1) % 2 ^ cntW else c.get k := by
  induction keys generalizing c with
  | nil => rfl
  | cons a rest ih =>
    rw [List.nodup_cons] at h
    by_cases hk : k = a
    · subst hk
      have : (countAll cntW (k :: rest) c).get k = _ := countAll_get_of_notMem (cntW := cntW) (keys := rest) h.1
      simp [this]
    · have : (countAll cntW (a :: rest) c).get k = _ := ih (c := c.set a ((c.get a + 1) % 2 ^ cntW)) h.2
      simp [this, hk]

/-- Counting keeps the counters in canonical form. -/
theorem countAll_wf {cntW : Nat} {keys : List Nat} {c : Counters} (h : Counters.wf cntW c = true)
    (hk : ∀ k ∈ keys, k < Config.numKeys) : Counters.wf cntW (countAll cntW keys c) = true := by
  induction keys generalizing c with
  | nil => exact h
  | cons a rest ih =>
    exact ih (Counters.wf_set h (hk a (by simp)) (Nat.mod_lt _ (by positivity))) fun k hk' => hk k (by simp [hk'])

/-- ENC_CHAR while the encoder is open. -/
theorem exec_encChar_open {s : State} (ch : Ch) (hf : s.fault = false) (hc : s.encClosed = false) :
    exec (.encChar ch) s = .next (s.encChar ch) := by
  simp [exec, execEncChar, State.misuseEncChar, hc, State.guarded_run _ _ hf]

/-- ENC_CLOSE while the encoder is open. -/
theorem exec_encClose_open {s : State} (hf : s.fault = false) (hc : s.encClosed = false) :
    exec .encClose s = .next s.encClose := by
  simp [exec, execEncClose, State.misuseEncClose, hc, State.guarded_run _ _ hf]

end Sys2Proof.Machine
end

