-- ==== Sys2Proof/Laws/Packer.lean ====
section
/-! SUPPORT. The packer's two commands while the packer is open, and PK_CLOSE's effect in one equation. -/

namespace Sys2Proof.Machine

/-- PK_ADD while the packer is open. -/
theorem exec_pkAdd_open {s : State} (code : Code) (hf : s.fault = false) (he : s.encClosed = true)
    (hp : s.pkClosed = false) : exec (.pkAdd code) s = .next (s.pkAdd code) := by
  simp [exec, execPkAdd, State.misusePkAdd, he, hp, State.guarded_run _ _ hf]

/-- PK_CLOSE after ENC_CLOSE. -/
theorem exec_pkClose_open {s : State} (hf : s.fault = false) (he : s.encClosed = true) :
    exec .pkClose s = .next s.pkClose := by
  simp [exec, execPkClose, State.misusePkClose, he, State.guarded_run _ _ hf]

/-- PK_ADD's effect: the packer registers and at most one byte. -/
theorem State.pkAdd_eq (s : State) (code : Code) : s.pkAdd code = { s with
    pkAcc := (s.pkAdd code).pkAcc
    pkOff := s.pkOff + 5#3
    pb := s.pb ++ if s.pkOff.toNat + 5 ≥ 8 then [.byte ((pkWindow s.pkAcc s.pkOff code).extractLsb' 8 8)] else [] } := by
  have h35 : s.pkOff - 3#3 = s.pkOff + 5#3 := by generalize s.pkOff = o; revert o; decide
  unfold State.pkAdd
  dsimp only
  split <;> simp [State.emitByte, h35]

/-- PK_CLOSE's effect (R102). -/
theorem State.pkClose_eq (s : State) : s.pkClose = { s with
    pb := s.pb ++ (if s.pkOff.toNat > 0 then [.byte s.pkAcc] else []) ++ [.bufferEnd]
    pkAcc := 0x00#8, pkOff := 0#3, pkClosed := true } := by
  unfold State.pkClose State.flush
  split <;> simp [State.emitByte, State.emitEnd]

/-- The window's two bytes, in terms of the partial byte and of CODE moved into place. -/
theorem pkWindow_hi (acc : BitVec 8) (off : BitVec 3) (code : Code) : (pkWindow acc off code).extractLsb' 8 8 =
    acc ||| (code.setWidth 16 <<< (11 - off.toNat)).extractLsb' 8 8 := by
  have h : (acc.setWidth 16 <<< 8).extractLsb' 8 8 = acc := by revert acc; decide
  rw [pkWindow, BitVec.extractLsb'_or, h]

theorem pkWindow_lo (acc : BitVec 8) (off : BitVec 3) (code : Code) : (pkWindow acc off code).extractLsb' 0 8 =
    (code.setWidth 16 <<< (11 - off.toNat)).extractLsb' 0 8 := by
  have h : (acc.setWidth 16 <<< 8).extractLsb' 0 8 = 0#8 := by revert acc; decide
  rw [pkWindow, BitVec.extractLsb'_or, h, BitVec.zero_or]

/-- The partial byte after PK_ADD again has zeros below its filled bits (R100). -/
theorem State.pkAdd_padZero {s : State} (code : Code) (h : s.pkAcc &&& (0xFF#8 >>> s.pkOff.toNat) = 0#8) :
    (s.pkAdd code).pkAcc &&& (0xFF#8 >>> (s.pkAdd code).pkOff.toNat) = 0#8 := by
  have hlo : ∀ off : BitVec 3, off.toNat + 5 ≥ 8 → ∀ code : Code,
      (code.setWidth 16 <<< (11 - off.toNat)).extractLsb' 0 8 &&& (0xFF#8 >>> (off - 3#3).toNat) = 0#8 := by decide
  have hhi : ∀ off : BitVec 3, ¬ off.toNat + 5 ≥ 8 → ∀ code : Code,
      (code.setWidth 16 <<< (11 - off.toNat)).extractLsb' 8 8 &&& (0xFF#8 >>> (off + 5#3).toNat) = 0#8 := by decide
  have hacc : ∀ off : BitVec 3, ¬ off.toNat + 5 ≥ 8 →
      0xFF#8 >>> (off + 5#3).toNat = 0xFF#8 >>> off.toNat &&& 0xFF#8 >>> (off + 5#3).toNat := by decide
  unfold State.pkAdd
  dsimp only
  split
  · next hoff => simpa only [pkWindow_lo] using hlo _ hoff code
  · next hoff =>
    simp only [pkWindow_hi]
    rw [BitVec.and_or_distrib_right, hhi _ hoff, hacc _ hoff, ← BitVec.and_assoc, h]
    simp

end Sys2Proof.Machine
end

