-- ==== Sys2Proof/Laws/Exec.lean ====
section
/-! SUPPORT. What a command can do, said once: every command answers a next state, and the seven ways it can have got
there, guards included. -/

namespace Sys2Proof.Machine

/-- Every command answers a next state. -/
theorem exec_next (i : Instr) (s : State) : ∃ t, exec i s = .next t := by
  cases i with
  | rdCount key => simp only [exec, execRdCount]; split <;> exact ⟨_, rfl⟩
  | _ => exact ⟨_, rfl⟩

theorem keyIndex_eq_some {key : Key} {k : Nat} : keyIndex key = some k ↔ key.toNat ≤ Config.keyShift ∧ key.toNat = k := by
  simp [keyIndex]

/-- When a command with the state `s` misuses (R115) or is an ill-formed RD_COUNT, and so takes a fault of this cause. -/
def Faulting (i : Instr) (s : State) (c : FaultCause) : Prop :=
  (c = .protocolMisuse ∧ ((∃ ch, i = .encChar ch ∧ s.encClosed = true) ∨ (i = .encClose ∧ s.encClosed = true) ∨
    (∃ code, i = .pkAdd code ∧ (s.encClosed = false ∨ s.pkClosed = true)) ∨ (i = .pkClose ∧ s.encClosed = false))) ∨
  (c = .illegalCommand ∧ ∃ key, i = .rdCount key ∧ Config.keyShift < key.toNat)

/-- The word that a read of a well-formed command answers with (R108 to R110). -/
def ReadValue (i : Instr) (s : State) (v : Rsp) : Prop :=
  (∃ key, i = .rdCount key ∧ key.toNat ≤ Config.keyShift ∧ v = BitVec.ofNat 32 (s.count.get key.toNat)) ∨
  (i = .rdStatus ∧ v = s.statusWord) ∨ (i = .rdFault ∧ v = s.faultCmdWord)

theorem exec_faulting {i : Instr} {s : State} {c : FaultCause} (hf : s.fault = false) (h : Faulting i s c) :
    exec i s = .next (s.raise c (encode i)) := by
  rcases h with ⟨rfl, ⟨ch, rfl, h⟩ | ⟨rfl, h⟩ | ⟨code, rfl, h⟩ | ⟨rfl, h⟩⟩ | ⟨rfl, key, rfl, h⟩
  · simp [exec, execEncChar, State.misuseEncChar, h, State.guarded_misuse _ _ hf]
  · simp [exec, execEncClose, State.misuseEncClose, h, State.guarded_misuse _ _ hf]
  · have : s.misusePkAdd = true := by rcases h with h | h <;> simp [State.misusePkAdd, h]
    simp [exec, execPkAdd, this, State.guarded_misuse _ _ hf]
  · simp [exec, execPkClose, State.misusePkClose, h, State.guarded_misuse _ _ hf]
  · simp [exec, execRdCount, keyIndex, Nat.not_le.mpr h, State.illegal, hf]

theorem exec_read {i : Instr} {s : State} {v : Rsp} (h : ReadValue i s v) : exec i s = .next (s.respond v) := by
  rcases h with ⟨key, rfl, hk, rfl⟩ | ⟨rfl, rfl⟩ | ⟨rfl, rfl⟩
  · simp [exec, execRdCount, keyIndex, hk]
  · rfl
  · rfl

/-- Everything a command that answers a next state can have done. -/
theorem exec_cases {i : Instr} {s t : State} (h : exec i s = .next t) :
    (t = s ∧ (i = .nop ∨ s.fault = true ∧ ∀ v, ¬ ReadValue i s v)) ∨
    (s.fault = false ∧ ∃ c, Faulting i s c ∧ t = s.raise c (encode i)) ∨
    (s.fault = false ∧ s.encClosed = false ∧ ∃ ch, i = .encChar ch ∧ t = s.encChar ch) ∨
    (s.fault = false ∧ s.encClosed = false ∧ i = .encClose ∧ t = s.encClose) ∨
    (s.fault = false ∧ s.encClosed = true ∧ s.pkClosed = false ∧ ∃ code, i = .pkAdd code ∧ t = s.pkAdd code) ∨
    (s.fault = false ∧ s.encClosed = true ∧ i = .pkClose ∧ t = s.pkClose) ∨
    (∃ v, ReadValue i s v ∧ t = s.respond v) := by
  by_cases hn : i = .nop
  · subst hn; cases h; exact .inl ⟨rfl, .inl rfl⟩
  by_cases hr : ∃ v, ReadValue i s v
  · obtain ⟨v, hv⟩ := hr
    rw [exec_read hv] at h; cases h
    exact .inr (.inr (.inr (.inr (.inr (.inr ⟨v, hv, rfl⟩)))))
  cases hf : s.fault with
  | true =>
    refine .inl ⟨?_, .inr ⟨rfl, fun v hv => hr ⟨v, hv⟩⟩⟩
    cases i with
    | rdStatus => exact absurd ⟨_, .inr (.inl ⟨rfl, rfl⟩)⟩ hr
    | rdFault => exact absurd ⟨_, .inr (.inr ⟨rfl, rfl⟩)⟩ hr
    | rdCount key =>
      by_cases hk : key.toNat ≤ Config.keyShift
      · exact absurd ⟨_, .inl ⟨key, rfl, hk, rfl⟩⟩ hr
      · simp only [exec, execRdCount, keyIndex, if_neg hk, State.illegal, hf, if_true] at h
        cases h; rfl
    | nop => cases h; rfl
    | encChar ch => rw [exec, execEncChar, State.guarded_fault _ _ _ hf] at h; cases h; rfl
    | encClose => rw [exec, execEncClose, State.guarded_fault _ _ _ hf] at h; cases h; rfl
    | pkAdd code => rw [exec, execPkAdd, State.guarded_fault _ _ _ hf] at h; cases h; rfl
    | pkClose => rw [exec, execPkClose, State.guarded_fault _ _ _ hf] at h; cases h; rfl
  | false =>
    by_cases hF : ∃ c, Faulting i s c
    · obtain ⟨c, hc⟩ := hF
      rw [exec_faulting hf hc] at h; cases h
      exact .inr (.inl ⟨rfl, c, hc, rfl⟩)
    right; right
    cases i with
    | nop => exact absurd rfl hn
    | encChar ch =>
      have he : s.encClosed = false := by
        by_contra hc; exact hF ⟨_, .inl ⟨rfl, .inl ⟨ch, rfl, by simpa using hc⟩⟩⟩
      rw [exec_encChar_open ch hf he] at h; cases h
      exact .inl ⟨rfl, he, ch, rfl, rfl⟩
    | encClose =>
      have he : s.encClosed = false := by
        by_contra hc; exact hF ⟨_, .inl ⟨rfl, .inr (.inl ⟨rfl, by simpa using hc⟩)⟩⟩
      rw [exec_encClose_open hf he] at h; cases h
      exact .inr (.inl ⟨rfl, he, rfl, rfl⟩)
    | pkAdd code =>
      have he : s.encClosed = true := by
        by_contra hc; exact hF ⟨_, .inl ⟨rfl, .inr (.inr (.inl ⟨code, rfl, .inl (by simpa using hc)⟩))⟩⟩
      have hp : s.pkClosed = false := by
        by_contra hc; exact hF ⟨_, .inl ⟨rfl, .inr (.inr (.inl ⟨code, rfl, .inr (by simpa using hc)⟩))⟩⟩
      rw [exec_pkAdd_open code hf he hp] at h; cases h
      exact .inr (.inr (.inl ⟨rfl, he, hp, code, rfl, rfl⟩))
    | pkClose =>
      have he : s.encClosed = true := by
        by_contra hc; exact hF ⟨_, .inl ⟨rfl, .inr (.inr (.inr ⟨rfl, by simpa using hc⟩))⟩⟩
      rw [exec_pkClose_open hf he] at h; cases h
      exact .inr (.inr (.inr (.inl ⟨rfl, he, rfl, rfl⟩)))
    | rdCount key =>
      by_cases hk : key.toNat ≤ Config.keyShift
      · exact absurd ⟨_, .inl ⟨key, rfl, hk, rfl⟩⟩ hr
      · exact absurd ⟨_, .inr ⟨rfl, key, rfl, by omega⟩⟩ hF
    | rdStatus => exact absurd ⟨_, .inr (.inl ⟨rfl, rfl⟩)⟩ hr
    | rdFault => exact absurd ⟨_, .inr (.inr ⟨rfl, rfl⟩)⟩ hr

end Sys2Proof.Machine
end

