-- ==== Sys2Proof/Laws/PerInstr.lean ====
section
/-! SUPPORT. Laws about a command as syntax, stated once and proved command by command. -/

namespace Sys2Proof.Laws.OpcodeRow

/-- The command's word, under the mask of the opcode-map row with the command's mnemonic, is that row's match (R60). -/
def Statement (i : Instr) : Prop :=
  ∃ row ∈ opcodeMap, row.1 = i.mnemonic ∧ encode i &&& row.2.2 = row.2.1

theorem nop : Statement .nop := by unfold Statement; decide

theorem encChar (ch : Ch) : Statement (.encChar ch) := by revert ch; unfold Statement; decide

theorem encClose : Statement .encClose := by unfold Statement; decide

theorem pkAdd (code : Code) : Statement (.pkAdd code) := by revert code; unfold Statement; decide

theorem pkClose : Statement .pkClose := by unfold Statement; decide

theorem rdCount (key : Key) : Statement (.rdCount key) :=
  ⟨("RD_COUNT", 0x5000, 0xFE00), by decide, rfl, by revert key; decide⟩

theorem rdStatus : Statement .rdStatus := by unfold Statement; decide

theorem rdFault : Statement .rdFault := by unfold Statement; decide

end Sys2Proof.Laws.OpcodeRow
end

