-- ==== Sys2Proof/Machine/Assembler.lean ====
section
/-! DEFINITION. The notation of spec 30_encoding.md R64, "one per line as `MNEMONIC operand`": what one line of a program of
the spec presents (log entry 16). -/

namespace Sys2Proof.Machine

/-- What one line says. -/
inductive AsmLine where
  /-- Blank, or a comment alone. -/
  | blank
  | command (i : Instr)
  /-- `.word 0xNNNN`: the raw word, legal or not. -/
  | word (w : Word)
  /-- `ENC_TEXT "s"`. -/
  | encText (text : List Ch)
  /-- `PACK c1, ..., cn`. -/
  | pack (codes : List Code)
  /-- `SESSION "s"`. -/
  | session (text : List Ch)
  deriving DecidableEq, Repr

/-- The line without the blanks it begins with. -/
def skipBlanks : List Char → List Char
  | ' ' :: rest => skipBlanks rest
  | '\t' :: rest => skipBlanks rest
  | line => line

/-- Nothing is left of the line but blanks and a comment. -/
def lineEnds (line : List Char) : Bool :=
  match skipBlanks line with
  | [] => true
  | '#' :: _ => true
  | _ :: _ => false

/-- A mnemonic, a number or a name: up to a blank, a comma or a comment. -/
def takeToken : List Char → List Char × List Char
  | [] => ([], [])
  | c :: rest =>
    if c = ' ' ∨ c = '\t' ∨ c = ',' ∨ c = '#' then ([], c :: rest)
    else (c :: (takeToken rest).1, (takeToken rest).2)

/-- The value of a hexadecimal digit, of which the first ten are the decimal ones. -/
def digitValue (c : Char) : Option Nat :=
  if '0'.toNat ≤ c.toNat ∧ c.toNat ≤ '9'.toNat then some (c.toNat - '0'.toNat)
  else if 'A'.toNat ≤ c.toNat ∧ c.toNat ≤ 'F'.toNat then some (c.toNat - 'A'.toNat + 10)
  else if 'a'.toNat ≤ c.toNat ∧ c.toNat ≤ 'f'.toNat then some (c.toNat - 'a'.toNat + 10)
  else none

/-- The digits read so far, and then these. -/
def digitsValue (base acc : Nat) : List Char → Option Nat
  | [] => some acc
  | c :: rest =>
    match digitValue c with
    | some d => if d < base then digitsValue base (acc * base + d) rest else none
    | none => none

/-- A number: `0x` and hexadecimal digits, or decimal digits (R10, R64). -/
def numberValue : List Char → Option Nat
  | [] => none
  | '0' :: 'x' :: c :: rest => digitsValue 16 0 (c :: rest)
  | c :: rest => digitsValue 10 0 (c :: rest)

/-- A quoted character, with the two escapes of R64. -/
def quotedChar : List Char → Option (Char × List Char)
  | '\'' :: '\\' :: 'n' :: '\'' :: rest => some ('\n', rest)
  | '\'' :: '\\' :: 'r' :: '\'' :: rest => some ('\r', rest)
  | '\'' :: c :: '\'' :: rest => some (c, rest)
  | _ => none

/-- The characters of a text up to its closing quote, with the same escapes. -/
def textBody : List Char → Option (List Ch × List Char)
  | [] => none
  | '"' :: rest => some ([], rest)
  | '\\' :: 'n' :: rest => (textBody rest).map fun (t, after) => (0x0A#8 :: t, after)
  | '\\' :: 'r' :: rest => (textBody rest).map fun (t, after) => (0x0D#8 :: t, after)
  | c :: rest => (charOperand c).bind fun ch => (textBody rest).map fun (t, after) => (ch :: t, after)

/-- An operand that is a number or a name, below `bound`. -/
def tokenOperand (named : String → Option Nat) (bound : Nat) (line : List Char) : Option (Nat × List Char) :=
  let (token, rest) := takeToken line
  (match numberValue token with
    | some n => some n
    | none => named (String.ofList token)).bind fun n => if n < bound then some (n, rest) else none

/-- A character operand: a quoted character or a number (R64). -/
def charOf (line : List Char) : Option (Ch × List Char) :=
  match quotedChar line with
  | some (c, rest) => (charOperand c).map fun ch => (ch, rest)
  | none => (tokenOperand (fun _ => none) 256 line).map fun (n, rest) => (BitVec.ofNat 8 n, rest)

/-- A code operand: a number or a name (R64). -/
def codeAt (line : List Char) : Option (Code × List Char) :=
  (tokenOperand (fun name => (namedCode name).map (·.toNat)) 32 line).map fun (n, rest) => (BitVec.ofNat 5 n, rest)

/-- A key operand: a quoted character, a number, or SHIFT (R64). -/
def keyAt (line : List Char) : Option (Key × List Char) :=
  match quotedChar line with
  | some (c, rest) => (charOperand c).map fun ch => (ch.setWidth 9, rest)
  | none => (tokenOperand (fun name => (namedKey name).map (·.toNat)) Config.numKeys line).map fun (n, rest) =>
      (BitVec.ofNat 9 n, rest)

/-- A text operand. -/
def textOf : List Char → Option (List Ch × List Char)
  | '"' :: rest => textBody rest
  | _ => none

/-- The codes of PACK, parted by commas; each one takes a character of the line, so the line's length bounds them. -/
def codesOf : Nat → List Char → Option (List Code × List Char)
  | 0, _ => none
  | fuel + 1, line =>
    (codeAt (skipBlanks line)).bind fun (c, rest) =>
      match skipBlanks rest with
      | ',' :: more => (codesOf fuel more).map fun (cs, after) => (c :: cs, after)
      | rest => some ([c], rest)

/-- An operand that nothing but a comment may follow, put into a line. -/
def whole {α : Type} (make : α → AsmLine) : Option (α × List Char) → Option AsmLine
  | some (a, rest) => if lineEnds rest then some (make a) else none
  | none => none

/-- One line (R64); none where it is in no form of R64. -/
def assembleChars (line : List Char) : Option AsmLine :=
  if lineEnds line then some .blank
  else
    let (mnemonic, rest) := takeToken (skipBlanks line)
    let operand := skipBlanks rest
    match String.ofList mnemonic with
    | "NOP" => whole .command (some (.nop, operand))
    | "ENC_CHAR" => whole (fun ch => .command (.encChar ch)) (charOf operand)
    | "ENC_CLOSE" => whole .command (some (.encClose, operand))
    | "PK_ADD" => whole (fun code => .command (.pkAdd code)) (codeAt operand)
    | "PK_CLOSE" => whole .command (some (.pkClose, operand))
    | "RD_COUNT" => whole (fun key => .command (.rdCount key)) (keyAt operand)
    | "RD_STATUS" => whole .command (some (.rdStatus, operand))
    | "RD_FAULT" => whole .command (some (.rdFault, operand))
    | ".word" => whole (fun n => .word (BitVec.ofNat 16 n)) (tokenOperand (fun _ => none) (2 ^ 16) operand)
    | "ENC_TEXT" => whole .encText (textOf operand)
    | "PACK" => if lineEnds operand then some (.pack []) else whole .pack (codesOf (operand.length + 1) operand)
    | "SESSION" => whole .session (textOf operand)
    | _ => none

/-- One line of a program of the spec. -/
def assemble (line : String) : Option AsmLine := assembleChars line.toList

/-- The words a line presents at once: all of them, but for SESSION's PACK. -/
def AsmLine.words : AsmLine → List Word
  | .blank => []
  | .command i => [encode i]
  | .word w => [w]
  | .encText text => (Sys2Proof.Machine.encText text).map encode
  | .pack codes => (Sys2Proof.Machine.pack codes).map encode
  | .session text => (sessionEncode text).map encode

/-- The words a line presents after those have taken effect and left the state `s`: for SESSION the PACK of the codes on CS,
which the host reads (R64, R132), and none for any other line. -/
def AsmLine.wordsAfter (l : AsmLine) (s : State) : List Word :=
  match l with
  | .session _ => (sessionPack s).map encode
  | .blank | .command _ | .word _ | .encText _ | .pack _ => []

end Sys2Proof.Machine
end

