-- ==== Sys2Proof/Tests/Slice0.lean ====
section
/-! SUPPORT. Small tests, every expected value from the spec (95_test_vectors.md or the rule named), and for each statement
a state and operands that meet its hypotheses. -/

namespace Sys2Proof.Tests

open Sys2Proof.Machine

/-! ## The machine the tests start from -/

/-- A lawful FIG_PUNCT of the tests' own: '!' has code 1, '@' has code 15, '/' and '[' are not in it. -/
def punct : List Ch := (List.range 13).map (fun i => BitVec.ofNat 8 (0x21 + i)) ++ [0x3F#8, 0x40#8]

/-- The state after reset of a block built with CNT_W = 32 and the tests' FIG_PUNCT. -/
def start : State := { State.reset with params := ⟨32, punct⟩ }

def figures : State := { start with mode := .figures }
def closed : State := { start with encClosed := true, cs := [0#5] }
def packing (acc : BitVec 8) (off : BitVec 3) : State := { closed with pkAcc := acc, pkOff := off }
def packed : State := { closed with pkClosed := true, pb := [.byte 0xF8#8, .bufferEnd] }
def faulted : State := { closed with fault := true, faultCause := .protocolMisuse, faultCmd := 0x1078#16 }

/-- `s` with the word `w` presented. -/
def given (s : State) (w : Word) : State := { s with input := [.command w] }

/-- The state after the word `w` is accepted in the state `s`. -/
def after (s : State) (w : Word) : State :=
  match step (given s w) with
  | .next t => t
  | .fault _ | .refused _ => s

/-! ## Operand ranges and encodings -/

theorem test_wellFormed_refuses_key_above_shift :
    Instr.wf (.rdCount 0x101#9) = false ∧ Instr.wf (.rdCount 0x1FF#9) = false ∧ Instr.wf (.rdCount 0x100#9) = true := by
  decide

theorem test_params_refuse_unlawful_punct :
    (Params.mk 32 punct).wf = true ∧ (Params.mk 33 punct).wf = false ∧ (Params.mk 0 punct).wf = false ∧
    (Params.mk 32 (punct.take 14)).wf = false ∧ (Params.mk 32 (0x3A#8 :: punct.tail)).wf = false ∧
    (Params.mk 32 (0x40#8 :: punct.tail)).wf = false ∧ (Params.mk 32 (0x30#8 :: punct.tail)).wf = false := by
  decide

theorem test_decode_nop : decode 0b0000000000000000#16 = .ok .nop := by decide
theorem test_decode_encChar : decode 0b0001000011111111#16 = .ok (.encChar 0xFF#8) := by decide
theorem test_decode_encClose : decode 0b0010000000000000#16 = .ok .encClose := by decide
theorem test_decode_pkAdd : decode 0b0011000000010101#16 = .ok (.pkAdd 0b10101#5) := by decide
theorem test_decode_pkClose : decode 0b0100000000000000#16 = .ok .pkClose := by decide
theorem test_decode_rdCount : decode 0b0101000100000000#16 = .ok (.rdCount 0x100#9) := by decide
theorem test_decode_rdStatus : decode 0b0110000000000000#16 = .ok .rdStatus := by decide
theorem test_decode_rdFault : decode 0b0111000000000000#16 = .ok .rdFault := by decide

/-- V7: why each word is illegal. -/
theorem test_decode_illegal :
    decode 0x8000#16 = .error .reservedOpcode ∧ decode 0xF123#16 = .error .reservedOpcode ∧
    decode 0x0001#16 = .error .reservedArgument ∧ decode 0x1100#16 = .error .reservedArgument ∧
    decode 0x2001#16 = .error .reservedArgument ∧ decode 0x3020#16 = .error .reservedArgument ∧
    decode 0x4001#16 = .error .reservedArgument ∧ decode 0x5101#16 = .error .keyOutOfRange ∧
    decode 0x51FF#16 = .error .keyOutOfRange ∧ decode 0x5200#16 = .error .reservedArgument ∧
    decode 0x6001#16 = .error .reservedArgument ∧ decode 0x7001#16 = .error .reservedArgument := by
  decide

theorem test_decodeTableWord :
    decodeTableWord 16 0x301F = some (.pkAdd 31#5) ∧ decodeTableWord 16 0x3020 = none ∧
    decodeTableWord 8 0x41 = none ∧ decodeTableWord 17 0x13000 = none := by
  decide

/-- R64: the named operands. -/
theorem test_named_operands :
    namedCode "TOGGLE" = some 31#5 ∧ namedCode "NULL" = some 0#5 ∧ namedCode "PERIOD" = some 27#5 ∧
    namedKey "SHIFT" = some 0x100#9 ∧ charOperand '\n' = some 0x0A#8 ∧ charOperand '\r' = some 0x0D#8 := by
  decide

/-- R64, on lines of P1, P4 and P5 and the expansions of E1 and E2. -/
theorem test_assemble :
    assemble "ENC_CHAR 'H'      # 0x1048   CS + 30, 8" = some (.command (.encChar 0x48#8)) ∧
    assemble "PK_ADD TOGGLE     # 0x301F" = some (.command (.pkAdd 31#5)) ∧
    assemble "RD_COUNT SHIFT" = some (.command (.rdCount 0x100#9)) ∧ assemble "RD_COUNT 0x101" = none ∧
    assemble ".word 0x5101      # illegal" = some (.word 0x5101#16) ∧
    (assemble "ENC_TEXT \"Hi.\"").map AsmLine.words = some [0x1048#16, 0x1069#16, 0x102E#16] ∧
    (assemble "PACK 30, 1, 2, 0").map AsmLine.words = some [0x301E#16, 0x3001#16, 0x3002#16, 0x3000#16, 0x4000#16] := by
  decide

/-- R64's SESSION, on CS = 30, 1, 2, 0 of E2. -/
theorem test_session :
    let line := assemble "SESSION \"Ab\""
    line.map AsmLine.words = some [0x1041#16, 0x1062#16, 0x2000#16] ∧
    line.map (·.wordsAfter { closed with cs := [30#5, 1#5, 2#5, 0#5] }) =
      some [0x301E#16, 0x3001#16, 0x3002#16, 0x3000#16, 0x4000#16] := by
  decide

/-! ## The classifier and the code table (V1) -/

theorem test_classify :
    classify 0x20#8 = .space ∧ classify 0x0A#8 = .cr ∧ classify 0x2E#8 = .period ∧ classify 0x41#8 = .letter .upper ∧
    classify 0x5A#8 = .letter .upper ∧ classify 0x61#8 = .letter .lower ∧ classify 0x7A#8 = .letter .lower ∧
    ([0x40#8, 0x5B#8, 0x60#8, 0x7B#8, 0x30#8, 0x0D#8, 0x5F#8, 0x09#8, 0x00#8, 0x7F#8, 0xC9#8].map classify).all
      (· = .symbol) = true := by
  decide

theorem test_figRom :
    figRom start.params 0x30#8 = 16#5 ∧ figRom start.params 0x39#8 = 25#5 ∧ figRom start.params 0x3A#8 = 26#5 ∧
    figRom start.params 0x3B#8 = 27#5 ∧ figRom start.params 0x21#8 = 1#5 ∧ figRom start.params 0x40#8 = 15#5 ∧
    figRom start.params 0x5B#8 = 0#5 ∧ figRom start.params 0xA3#8 = 0#5 ∧ figRom start.params 0x00#8 = 0#5 := by
  decide

/-- V2, for any FIG_PUNCT at all: a character above 0x7F is unencodable in the block as built. -/
theorem test_figRom_above_ascii : figRom Config.params 0xFF#8 = 0#5 ∧ figRom Config.params 0x39#8 = 25#5 := by decide

/-! ## One step of each command -/

theorem test_nop_in_fault_state : after faulted 0x0000#16 = faulted := by decide

/-- V2, Figures column of 'A': CS + 31, 30, 1; MODE L; count 0x41, 0x100. -/
theorem test_encChar_uppercase_in_figures :
    (after figures 0x1041#16).cs = [31#5, 30#5, 1#5] ∧ (after figures 0x1041#16).mode = .letters ∧
    (after figures 0x1041#16).count = [(0x41, 1), (0x100, 1)] ∧ (after figures 0x1041#16).shiftStatus = .lower := by
  decide

/-- V2: with CNT_W = 8 and COUNT[0x41] = 0xFF, 'a' gives COUNT[0x41] = 0; '@' = FIG_PUNCT[14] from Letters gives 31, 15;
'[' that is not in FIG_PUNCT gives its diagnostic and its count. -/
theorem test_encChar_wrap_and_symbols :
    (after { start with params := ⟨8, punct⟩, count := [(0x41, 0xFF)] } 0x1061#16).count = [] ∧
    (after start 0x1040#16).cs = [31#5, 15#5] ∧ (after start 0x1040#16).mode = .figures ∧
    (after figures 0x105B#16).diag = [.unencodable 0x5B#8] ∧ (after figures 0x105B#16).cs = [] ∧
    (after figures 0x105B#16).mode = .figures ∧ (after figures 0x105B#16).count = [(0x5B, 1)] := by
  decide

/-- V3, second row. -/
theorem test_encClose_in_figures :
    after figures 0x2000#16 = { figures with cs := [0#5], encClosed := true } ∧
    (after figures 0x2000#16).statusWord = 0x00000005#32 := by
  decide

/-- V3, third and fourth rows. -/
theorem test_encClose_faults :
    after closed 0x2000#16 = { closed with fault := true, faultCause := .protocolMisuse, faultCmd := 0x2000#16 } ∧
    after start 0x2001#16 = { start with fault := true, faultCause := .illegalCommand, faultCmd := 0x2001#16 } := by
  decide

/-- V4: code 0x15 after 1, 3 and 7 codes of 31. -/
theorem test_pkAdd_carries :
    after (packing 0xF8#8 5#3) 0x3015#16 = { packing 0x40#8 2#3 with pb := [.byte 0xFD#8] } ∧
    after (packing 0xFE#8 7#3) 0x3015#16 = { packing 0x50#8 4#3 with pb := [.byte 0xFF#8] } ∧
    after (packing 0xE0#8 3#3) 0x3015#16 = { packing 0x00#8 0#3 with pb := [.byte 0xF5#8] } := by
  decide

/-- V4: code 31 after 2 codes of 0; V8: PK_ADD before ENC_CLOSE and after PK_CLOSE. -/
theorem test_pkAdd_inside_a_byte_and_misuse :
    after (packing 0x00#8 2#3) 0x301F#16 = packing 0x3E#8 7#3 ∧
    (after start 0x3000#16).faultCause = .protocolMisuse ∧ (after packed 0x3001#16).faultCmd = 0x3001#16 := by
  decide

/-- V5: two codes of 31, and none. -/
theorem test_pkClose_pads :
    (after (packing 0xC0#8 2#3) 0x4000#16).pb = [.byte 0xC0#8, .bufferEnd] ∧
    (after (packing 0x00#8 0#3) 0x4000#16).pb = [.bufferEnd] ∧
    (after (packing 0xC0#8 2#3) 0x4000#16).statusWord = 0x0000000C#32 := by
  decide

/-- V5: a second PK_CLOSE, and PK_CLOSE before ENC_CLOSE. -/
theorem test_pkClose_again_and_misuse :
    after packed 0x4000#16 = { packed with pb := [.byte 0xF8#8, .bufferEnd, .bufferEnd] } ∧
    (after start 0x4000#16).faultCmd = 0x4000#16 := by
  decide

/-- V6: with CNT_W = 8 and COUNT[0x41] = 0xFF; a key that nothing has counted; the key SHIFT. -/
theorem test_rdCount :
    (after { start with params := ⟨8, punct⟩, count := [(0x41, 0xFF)] } 0x5041#16).rsp = [0x000000FF#32] ∧
    (after { start with count := [(0x41, 3), (0x100, 3)] } 0x5100#16).rsp = [0x00000003#32] ∧
    (after { start with count := [(0x48, 1)] } 0x5068#16).rsp = [0x00000000#32] := by
  decide

/-- R114, R118: an ill-formed KEY, in both fault states. -/
theorem test_rdCount_illegal :
    after start 0x5101#16 = { start with fault := true, faultCause := .illegalCommand, faultCmd := 0x5101#16 } ∧
    after faulted 0x5101#16 = faulted := by
  decide

/-- V6: after ENC_CLOSE, PK_ADD 31; P3: in the fault state; V7: after an illegal word from reset. -/
theorem test_rdStatus :
    (after (packing 0xF8#8 5#3) 0x6000#16).rsp = [0x00F80054#32] ∧ (after faulted 0x6000#16).rsp = [0x00000184#32] ∧
    (after (after start 0x8000#16) 0x6000#16).rsp = [0x00000280#32] := by
  decide

/-- P3 and V6. -/
theorem test_rdFault : (after faulted 0x7000#16).rsp = [0x00001078#32] ∧ (after start 0x7000#16).rsp = [0x00000000#32] := by
  decide

/-! ## The step around a command -/

/-- V7: with ENC_CLOSED = 1 the word 0x1100 raises ILLEGAL_COMMAND. -/
theorem test_illegal_before_misuse : (after closed 0x1100#16).faultCause = .illegalCommand := by decide

/-- V8: the fault state discards a legal encoder command, an illegal word and a packer command. -/
theorem test_fault_state_discards :
    after faulted 0x1041#16 = faulted ∧ after faulted 0x8000#16 = faulted ∧ after faulted 0x3000#16 = faulted := by
  decide

/-- The next step runs the word that `withFetchWord` presents, before what was to be presented. -/
theorem test_withFetchWord :
    (match step ({ start with input := [.reset] }.withFetchWord 16 0x1061) with
      | .next t => decide (t.cs = [1#5] ∧ t.input = [.reset])
      | .fault _ | .refused _ => false) = true := by
  decide

/-- R126, R127: a reset edge, and an idle step. -/
theorem test_reset_and_idle :
    step { faulted with input := [.reset] } = .next start ∧ step faulted = .next faulted :=
  ⟨rfl, rfl⟩

/-- R39: `End` moves with pb_last = 1 and pb_data = 0x00; `fault` follows FAULT. R128: rst holds a ready or valid at 0. -/
theorem test_ports :
    PbItem.bufferEnd.pbLast = 1#1 ∧ PbItem.bufferEnd.pbData = 0x00#8 ∧ (PbItem.byte 0xF8#8).pbLast = 0#1 ∧
    (PbItem.byte 0xF8#8).pbData = 0xF8#8 ∧ (DiagItem.unencodable 0xA3#8).diagData = 0xA3#8 ∧
    faulted.faultPin = 1#1 ∧ start.faultPin = 0#1 ∧ gatedByReset (some .reset) 1#1 = 0#1 ∧ gatedByReset none 1#1 = 1#1 := by
  decide

/-- P1's check and V4: the packed bytes; and the buffers of a stream (R72). -/
theorem test_packedBuffer :
    packedBuffer [30#5, 8#5, 9#5, 27#5, 0#5] = [0xF2#8, 0x13#8, 0xB0#8, 0x00#8] ∧
    packedBuffer [1#5, 2#5, 3#5, 4#5, 5#5, 6#5, 7#5, 8#5] = [0x08#8, 0x86#8, 0x42#8, 0x98#8, 0xE8#8] ∧
    packedBuffer [] = [] ∧
    packedBuffers [.byte 0xF8#8, .bufferEnd, .bufferEnd, .byte 1#8] = [[0xF8#8], []] ∧
    openBuffer [.byte 0xF8#8, .bufferEnd, .byte 1#8] = [1#8] := by
  decide

/-- The source's count of "aA." (V2's "Counter keys ignore case", and R91). -/
theorem test_sourceCount :
    let text := [0x61#8, 0x41#8, 0x2E#8]
    sourceCount text 0x41 = 2 ∧ sourceCount text 0x61 = 0 ∧ sourceCount text 0x100 = 1 ∧ sourceCount text 0x2E = 1 := by
  decide

/-! ## Witnesses: states and operands that meet the hypotheses of the statements -/

theorem start_open : start.EncoderOpen := ⟨rfl, rfl⟩
theorem figures_open : figures.EncoderOpen := ⟨rfl, rfl⟩
theorem packing_open (acc : BitVec 8) (off : BitVec 3) : (packing acc off).PackerOpen := ⟨rfl, rfl, rfl⟩

/-- A session in its middle: "A1" has been encoded. -/
def middle : State :=
  { start with mode := .figures, count := [(0x31, 1), (0x41, 1), (0x100, 1)], cs := [30#5, 1#5, 31#5, 17#5] }

theorem middle_open : middle.EncoderOpen := ⟨rfl, rfl⟩

theorem middle_inv : middle.Inv where
  params := by decide
  count := by decide
  shiftLower := rfl
  beforeClose := by decide
  afterPkClose := by decide
  padZero := by decide
  faultCause := by decide
  faultCmd := by decide
  nullLast := by decide
  noNull := by decide
  wholeCodes := by decide

theorem packed_inv : packed.Inv where
  params := by decide
  count := by decide
  shiftLower := rfl
  beforeClose := by decide
  afterPkClose := by decide
  padZero := by decide
  faultCause := by decide
  faultCmd := by decide
  nullLast := by decide
  noNull := by decide
  wholeCodes := by decide

theorem faulted_inv : faulted.Inv where
  params := by decide
  count := by decide
  shiftLower := rfl
  beforeClose := by decide
  afterPkClose := by decide
  padZero := by decide
  faultCause := by decide
  faultCmd := by decide
  nullLast := by decide
  noNull := by decide
  wholeCodes := by decide

theorem packing_inv : (packing 0xF8#8 5#3).Inv where
  params := by decide
  count := by decide
  shiftLower := rfl
  beforeClose := by decide
  afterPkClose := by decide
  padZero := by decide
  faultCause := by decide
  faultCmd := by decide
  nullLast := by decide
  noNull := by decide
  wholeCodes := by decide

/-- A place of a list of four is one of its four places. -/
theorem split_four {α : Type} {a b c d x : α} {before rest : List α} (h : [a, b, c, d] = before ++ x :: rest) :
    (before = [] ∧ x = a ∧ rest = [b, c, d]) ∨ (before = [a] ∧ x = b ∧ rest = [c, d]) ∨
    (before = [a, b] ∧ x = c ∧ rest = [d]) ∨ (before = [a, b, c] ∧ x = d ∧ rest = []) := by
  rcases before with _ | ⟨p, _ | ⟨q, _ | ⟨r, _ | ⟨t, before⟩⟩⟩⟩ <;> simp at h <;> simp [h]

theorem middle_wellModed : middle.CodeStreamWellModed where
  mode := by decide
  lettersOnly before c rest h hc := by
    rcases split_four h with ⟨rfl, rfl, -⟩ | ⟨rfl, rfl, -⟩ | ⟨rfl, rfl, -⟩ | ⟨rfl, rfl, -⟩ <;> revert hc <;> decide
  afterToggle before rest h := by
    rcases split_four h with ⟨rfl, h, rfl⟩ | ⟨rfl, h, rfl⟩ | ⟨rfl, h, rfl⟩ | ⟨rfl, h, rfl⟩
    · exact absurd h (by decide)
    · exact absurd h (by decide)
    · exact ⟨17#5, [], rfl, by decide⟩
    · exact absurd h (by decide)

theorem middle_silentKeysZero : middle.SilentKeysZero := by
  intro k hk
  have h1 : 0x31 ≠ k := by rintro rfl; cases hk
  have h2 : 0x41 ≠ k := by rintro rfl; cases hk
  have h3 : 0x100 ≠ k := by rintro rfl; cases hk
  simp [middle, Counters.get, h1, h2, h3]

theorem witness_DecodeOfEncodedCommandIsTheCommand :
    Instr.wf (.encChar 0xFF#8) = true ∧ Instr.wf (.pkAdd 31#5) = true ∧ Instr.wf (.rdCount 0x100#9) = true := by decide

theorem witness_EncodeOfDecodedWordIsTheWord : decode 0x5100#16 = .ok (.rdCount 0x100#9) := by decide

theorem witness_LegalWordsAreTheCasesOfTheLegalityRule :
    legal 0x7000#16 = true ∧ legal 0x10FF#16 = true ∧ legal 0x301F#16 = true ∧ legal 0x5100#16 = true ∧
    legal 0x5101#16 = false ∧ (given middle 0x5101#16).input = [.command 0x5101#16] ∧ (given middle 0x5101#16).fault = false := by
  decide

theorem witness_OpcodeMapSelectsTheDecodedCommand :
    ("RD_COUNT", 0x5000#16, 0xFE00#16) ∈ opcodeMap ∧ ("PK_ADD", 0x3000#16, 0xFFE0#16) ∈ opcodeMap ∧
    0x5100#16 &&& 0xFE00#16 = 0x5000#16 ∧ 0x5101#16 &&& 0xFE00#16 = 0x5000#16 := by
  decide

theorem witness_OperandsAreTheirFieldsUnchanged :
    decode 0x10FF#16 = .ok (.encChar 0xFF#8) ∧ decode 0x301F#16 = .ok (.pkAdd 31#5) ∧
    decode 0x5100#16 = .ok (.rdCount 0x100#9) := by
  decide

/-- The state of `given s w` is one a step leaves for `after s w`. -/
theorem step_given (s : State) (w : Word) : step (given s w) = .next (after s w) := by
  have h : ∃ t, step (given s w) = .next t := by
    cases h : decode w with
    | ok i =>
      obtain ⟨t, ht⟩ := exec_next i { given s w with input := [] }
      exact ⟨t, (step_command rfl h).trans ht⟩
    | error e => exact ⟨_, step_illegal rfl h⟩
  obtain ⟨t, h⟩ := h
  rw [after, h]

theorem witness_FaultCausingWordsAreNeverZero :
    (given closed 0x1041#16).fault = false ∧ step (given closed 0x1041#16) = .next (after closed 0x1041#16) ∧
    (after closed 0x1041#16).fault = true ∧ (after closed 0x1041#16).faultCause = .protocolMisuse ∧
    step (given start 0x0001#16) = .next (after start 0x0001#16) ∧ (after start 0x0001#16).faultCause = .illegalCommand :=
  ⟨rfl, step_given .., by decide, by decide, step_given .., by decide⟩

theorem witness_StepRunsTheDecodedCommand :
    (given middle 0x3005#16).input = .command 0x3005#16 :: [] ∧ decode 0x3005#16 = .ok (.pkAdd 5#5) ∧
    middle.input = [] ∧ Instr.wf (.rdCount 0x100#9) = true := by
  decide

theorem witness_ResetGivesEveryEntryItsResetValue : { faulted with input := [.reset] }.input = .reset :: [] := rfl

theorem witness_AcceptedWordsMeetTheChecksInOrder :
    (faulted.fault = true ∧ legal 0x5100#16 = true ∧ opOf 0x5100#16 ∈ [0x0#4, 0x5#4, 0x6#4, 0x7#4]) ∧
    (legal 0x5101#16 = false ∧ opOf 0x3000#16 ∉ [0x0#4, 0x5#4, 0x6#4, 0x7#4]) ∧
    (closed.fault = false ∧ legal 0x1100#16 = false) ∧
    (legal 0x1041#16 = true ∧ closed.Misuse 0x1041#16) ∧ (legal 0x3000#16 = true ∧ packed.Misuse 0x3000#16) ∧
    (legal 0x4000#16 = true ∧ ¬ packed.Misuse 0x4000#16) := by
  unfold State.Misuse; decide

theorem witness_MisuseRaisesProtocolMisuseExactly :
    start.fault = false ∧ closed.fault = false ∧ packed.fault = false ∧ closed.encClosed = true ∧ start.encClosed = false ∧
    packed.pkClosed = true ∧ (0x1041#16 : Word).toNat = 0x1000 + (0x41#8 : Ch).toNat ∧
    (0x301F#16 : Word).toNat = 0x3000 + (31#5 : Code).toNat := by
  decide

theorem witness_FaultEntryChangesOnlyTheFaultRegisters :
    (given packed 0x3001#16).input = [.command 0x3001#16] ∧ (given packed 0x3001#16).fault = false ∧
    step (given packed 0x3001#16) = .next (after packed 0x3001#16) ∧ (after packed 0x3001#16).fault = true :=
  ⟨rfl, rfl, step_given .., by decide⟩

theorem witness_OnlyResetLeavesTheFaultState :
    (given faulted 0x7000#16).fault = true ∧ step (given faulted 0x7000#16) = .next (after faulted 0x7000#16) ∧
    { faulted with input := [.reset] }.fault = true ∧ step { faulted with input := [.reset] } = .next start ∧
    (legal 0x8000#16 = false ∧ step (given faulted 0x8000#16) = .next (after faulted 0x8000#16)) ∧
    ((given faulted 0x1041#16).Misuse 0x1041#16 ∧ step (given faulted 0x1041#16) = .next (after faulted 0x1041#16)) :=
  ⟨rfl, step_given .., rfl, rfl, ⟨by decide, step_given ..⟩, .inl ⟨rfl, rfl⟩, step_given ..⟩

theorem witness_FigRomHoldsTheFiguresTable :
    start.params.wf = true ∧ start.params.figPunct[0]? = some 0x21#8 ∧ start.params.figPunct[14]? = some 0x40#8 ∧
    0x5B#8 ∉ start.params.figPunct ∧ figRom start.params 0x40#8 ≠ 0#5 := by
  decide

theorem witness_EachCodeSpaceNamesItsCharactersOneToOne :
    start.params.wf = true ∧ isUppercase 0x5A#8 = true ∧ 1 ≤ (26#5 : Code).toNat ∧ (27#5 : Code).toNat ≤ 27 := by decide

/-- For the statements about ENC_CHAR: an open encoder in each mode, and characters of each path. -/
theorem witness_encChar :
    (start.EncoderOpen ∧ figures.EncoderOpen) ∧ isCr 0x0A#8 = true ∧ isPeriod 0x2E#8 = true ∧ isLetter 0x7A#8 = true ∧
    (classify 0xA3#8 = .symbol ∧ figRom start.params 0xA3#8 = 0#5) ∧
    (classify 0x39#8 = .symbol ∧ (0x39#8 : Ch) ≠ 0x0D#8 ∧ (0x39#8 : Ch) ≠ 0x5F#8 ∧ figRom figures.params 0x39#8 ≠ 0#5) ∧
    start.params.wf = true ∧ start.shiftStatus = .lower :=
  ⟨⟨start_open, figures_open⟩, by decide⟩

theorem witness_LetterIsCountedShiftedAndEmitted :
    (0x41 ≤ (0x5A#8 : Ch).toNat ∧ (0x5A#8 : Ch).toNat ≤ 0x5A) ∧
    (0x61 ≤ (0x7A#8 : Ch).toNat ∧ (0x7A#8 : Ch).toNat ≤ 0x7A ∧ (0x5A#8 : Ch).toNat = (0x7A#8 : Ch).toNat - 0x20) := by
  decide

theorem witness_EncCloseAppendsOneNullAndCloses :
    (figures.fault = false ∧ figures.encClosed = false) ∧ closed.fault = false ∧ closed.encClosed = true := by decide

theorem witness_SilentCountersStayZeroAndOthersCount :
    middle.SilentKeysZero ∧ (given middle 0x1061#16).SilentKeysZero ∧
    step (given middle 0x1061#16) = .next (after middle 0x1061#16) ∧
    silentKey 0x100 = false ∧ silentKey 0x41 = false ∧ silentKey 0xFF = false :=
  ⟨middle_silentKeysZero, middle_silentKeysZero, step_given .., by decide, by decide, by decide⟩

theorem witness_CountersAreTheSourceCountsModuloTheWidth :
    middle.EncoderOpen ∧ middle.Inv ∧ middle.count.get 0x41 + sourceCount [0x61#8] 0x41 < 2 ^ middle.params.cntW :=
  ⟨middle_open, middle_inv, by decide⟩

/-- A partial byte at each offset, with zeros below its filled bits. -/
theorem witness_PkAddAtEachOffset :
    ∀ off : BitVec 3, (packing (0xFF#8 <<< (8 - off.toNat)) off).PackerOpen ∧
      (packing (0xFF#8 <<< (8 - off.toNat)) off).pkAcc &&& (0xFF#8 >>> (packing (0xFF#8 <<< (8 - off.toNat)) off).pkOff.toNat) =
        0#8 :=
  fun off => ⟨packing_open .., by revert off; decide⟩

theorem witness_PkAddShiftsTheCodeIntoTheWindow :
    (packing 0xFF#8 1#3).PackerOpen ∧ (packing 0xFE#8 7#3).PackerOpen := ⟨packing_open .., packing_open ..⟩

theorem witness_PackerWindowIsExact :
    (packing 0xFE#8 7#3).PackerOpen ∧ 0xFE#8 &&& (0xFF#8 >>> (7#3 : BitVec 3).toNat) = 0#8 ∧
    (packing 0x00#8 0#3).PackerOpen ∧ 0x00#8 &&& (0xFF#8 >>> (0#3 : BitVec 3).toNat) = 0#8 :=
  ⟨packing_open .., by decide, packing_open .., by decide⟩

theorem witness_PkCloseFlushesAndEndsTheBuffer :
    (packing 0xC0#8 2#3).fault = false ∧ (packing 0xC0#8 2#3).encClosed = true ∧ packed.encClosed = true ∧
    start.fault = false ∧ start.encClosed = false := by
  decide

theorem witness_RepeatedPkCloseEmitsOnlyEnd : packed.Inv ∧ packed.fault = false ∧ packed.pkClosed = true :=
  ⟨packed_inv, rfl, rfl⟩

/-- For the two statements about packing a list of codes. -/
theorem witness_pack : (packing 0x00#8 0#3).PackerOpen ∧ (packing 0x00#8 0#3).pkAcc = 0x00#8 ∧ (packing 0x00#8 0#3).pkOff = 0#3 :=
  ⟨packing_open .., rfl, rfl⟩

theorem witness_PackedBufferHasItsLengthAndRoundTrips :
    ∀ c ∈ [0#5, 0#5], c = (0#5 : Code) := by decide

theorem witness_SessionPacksItsCodeStreamAndEndsNormally : middle.EncoderOpen ∧ middle.Inv := ⟨middle_open, middle_inv⟩

theorem witness_RdCountAnswersTheCounter :
    (0x100#9 : Key).toNat ≤ 0x100 ∧ middle.Inv ∧ 0x100 < (0x101#9 : Key).toNat ∧ start.fault = false ∧ faulted.fault = true :=
  ⟨by decide, middle_inv, by decide, rfl, rfl⟩

theorem witness_RdStatusAnswersTheStatusLayout :
    start.faultCause = .none ∧ faulted.faultCause = .protocolMisuse ∧
    (after start 0x8000#16).faultCause = .illegalCommand := by
  decide

theorem witness_RdFaultAnswersTheFaultingWord : (packing 0xF8#8 5#3).Inv ∧ (packing 0xF8#8 5#3).fault = false :=
  ⟨packing_inv, rfl⟩

theorem witness_ReadsAppendOneWordAndChangeNothingElse :
    Instr.wf (.rdCount 0x100#9) = true ∧ Instr.wf .rdStatus = true ∧ Instr.wf .rdFault = true := by decide

/-- For the statements about what a command writes, on one that changes its entries: ENC_CHAR, PK_CLOSE and a fault. -/
theorem witness_exec :
    (exec (.encChar 0x41#8) figures = .next (figures.encChar 0x41#8) ∧ (figures.encChar 0x41#8).mode ≠ figures.mode) ∧
    (exec .pkClose (packing 0xF8#8 5#3) = .next (packing 0xF8#8 5#3).pkClose ∧
      (packing 0xF8#8 5#3).pkClose.pkAcc ≠ (packing 0xF8#8 5#3).pkAcc) ∧
    (exec (.pkAdd 1#5) packed = .next (packed.raise .protocolMisuse 0x3001#16) ∧
      (packed.raise .protocolMisuse 0x3001#16).fault ≠ packed.fault) :=
  ⟨⟨rfl, by decide⟩, ⟨rfl, by decide⟩, rfl, by decide⟩

theorem witness_StreamsOnlyGrowAndByNoMoreThanACommandProduces :
    (given figures 0x1041#16).input = [.command 0x1041#16] ∧ step (given figures 0x1041#16) = .next (after figures 0x1041#16) ∧
    step (given (packing 0xF8#8 5#3) 0x4000#16) = .next (after (packing 0xF8#8 5#3) 0x4000#16) :=
  ⟨rfl, step_given .., step_given ..⟩

theorem witness_EveryStepKeepsTheInvariants :
    (given (packing 0xF8#8 5#3) 0x301F#16).Inv ∧ faulted.Inv ∧
    step (given (packing 0xF8#8 5#3) 0x301F#16) = .next (after (packing 0xF8#8 5#3) 0x301F#16) ∧
    step faulted = .next faulted :=
  have h := packing_inv
  ⟨⟨h.1, h.2, h.3, h.4, h.5, h.6, h.7, h.8, h.9, h.10, h.11⟩, faulted_inv, step_given .., rfl⟩

theorem witness_EveryStepKeepsTheCodeStreamWellModed :
    middle.params.wf = true ∧ middle.CodeStreamWellModed ∧ (given middle 0x1041#16).CodeStreamWellModed ∧
    step (given middle 0x1041#16) = .next (after middle 0x1041#16) :=
  ⟨by decide, middle_wellModed, ⟨middle_wellModed.1, middle_wellModed.2, middle_wellModed.3⟩, step_given ..⟩

end Sys2Proof.Tests
end

section
/-! What a command appends to the four streams (20_memory.md R41), and the settlement of O44. -/

namespace Sys2Proof.Machine

/-! ## The opcode of a decoded command -/

/-- The OP field of a command's row in R60. -/
def opcode : Instr → BitVec 4
  | .nop => 0x0#4
  | .encChar _ => 0x1#4
  | .encClose => 0x2#4
  | .pkAdd _ => 0x3#4
  | .pkClose => 0x4#4
  | .rdCount _ => 0x5#4
  | .rdStatus => 0x6#4
  | .rdFault => 0x7#4

theorem opOf_of_decode {w : Word} {i : Instr} (h : decode w = .ok i) : opOf w = opcode i := by
  refine BitVec.eq_of_toNat_eq ((opOf_toNat w).trans ?_)
  rcases decode_ok_iff.mp h with ⟨hw, rfl⟩ | ⟨hw, rfl⟩ | ⟨hw, rfl⟩ | ⟨hw, rfl⟩ | ⟨hw, rfl⟩ | ⟨hw, -, rfl⟩ | ⟨hw, rfl⟩ |
    ⟨hw, rfl⟩ <;> simp only [opcode, BitVec.toNat_ofNat] <;> omega

/-! ## How many items one character puts out -/

theorem toggleFrom_length_le (m other : Mode) : (toggleFrom m other).length ≤ 1 := by
  unfold toggleFrom; split <;> simp

/-- At most TOGGLE, SHIFT and the character's own code (R86). -/
theorem charCodes_length_le (p : Params) (m : Mode) (shift : LetterCase) (ch : Ch) :
    (charCodes p m shift ch).length ≤ 3 := by
  have hfigures := toggleFrom_length_le m .figures
  have hletters := toggleFrom_length_le m .letters
  unfold charCodes
  split
  case h_1 | h_2 | h_3 => simp <;> omega
  case h_4 c _ => by_cases h : c = shift <;> simp [h] <;> omega
  case h_5 => split <;> simp; omega

theorem charDiags_length_le (p : Params) (ch : Ch) : (charDiags p ch).length ≤ 1 := by
  unfold charDiags
  split
  · split <;> simp
  all_goals simp

/-! ## The growth of the streams -/

/-- R41's maximum of CS items for a command word with this OP. -/
def maxCodes (op : BitVec 4) : Nat := if op = 0x1#4 then 3 else if op = 0x2#4 then 1 else 0

/-- R41's maximum of DIAG items. -/
def maxDiags (op : BitVec 4) : Nat := if op = 0x1#4 then 1 else 0

/-- R41's maximum of PB items. -/
def maxPbItems (op : BitVec 4) : Nat := if op = 0x3#4 then 1 else if op = 0x4#4 then 2 else 0

/-- R41's maximum of RSP words. -/
def maxWords (op : BitVec 4) : Nat := if op ∈ [0x5#4, 0x6#4, 0x7#4] then 1 else 0

/-- Every stream of `t` is the one of `s` with at most R41's maximum for `op` appended. -/
def StreamsGrowWithin (op : BitVec 4) (s t : State) : Prop :=
  ∃ codes bytes diags words, t.cs = s.cs ++ codes ∧ t.pb = s.pb ++ bytes ∧ t.diag = s.diag ++ diags ∧
    t.rsp = s.rsp ++ words ∧ codes.length ≤ maxCodes op ∧ diags.length ≤ maxDiags op ∧
    bytes.length ≤ maxPbItems op ∧ words.length ≤ maxWords op

/-- What the host presents next is no stream. -/
theorem streamsGrowWithin_setInput {op : BitVec 4} {s t : State} (rest : List HostInput) :
    StreamsGrowWithin op { s with input := rest } t ↔ StreamsGrowWithin op s t := Iff.rfl

theorem streamsGrowWithin_refl (op : BitVec 4) (s : State) : StreamsGrowWithin op s s :=
  ⟨[], [], [], [], by simp⟩

/-- A fault puts nothing on a stream (R117). -/
theorem streamsGrowWithin_raise (op : BitVec 4) (s : State) (c : FaultCause) (w : Word) :
    StreamsGrowWithin op s (s.raise c w) :=
  streamsGrowWithin_refl op s

theorem streamsGrowWithin_illegal (op : BitVec 4) (s : State) (w : Word) : StreamsGrowWithin op s (s.illegal w) := by
  rcases s.illegal_cases w with ⟨-, h⟩ | ⟨-, h⟩ <;> rw [h]
  · exact streamsGrowWithin_refl op s
  · exact streamsGrowWithin_raise op s _ w

theorem streamsGrowWithin_encChar (s : State) (ch : Ch) : StreamsGrowWithin 0x1#4 s (s.encChar ch) := by
  rw [State.encChar_eq]
  exact ⟨_, [], _, [], rfl, by simp, rfl, by simp, charCodes_length_le .., charDiags_length_le .., by simp, by simp⟩

theorem streamsGrowWithin_encClose (s : State) : StreamsGrowWithin 0x2#4 s s.encClose :=
  ⟨[codeNull], [], [], [], by simp [State.encClose, maxCodes]⟩

/-- A full byte is all that PK_ADD can put out (R99). -/
theorem streamsGrowWithin_pkAdd (s : State) (code : Code) : StreamsGrowWithin 0x3#4 s (s.pkAdd code) := by
  rw [State.pkAdd_eq]
  exact ⟨[], _, [], [], by simp, rfl, by simp, by simp, by simp, by simp, by split <;> simp [maxPbItems], by simp⟩

/-- The partial byte, where there is one, and the `End` (R102). -/
theorem streamsGrowWithin_pkClose (s : State) : StreamsGrowWithin 0x4#4 s s.pkClose := by
  rw [State.pkClose_eq]
  exact ⟨[], _, [], [], by simp, List.append_assoc .., by simp, by simp, by simp, by simp,
    by split <;> simp [maxPbItems], by simp⟩

theorem streamsGrowWithin_respond {i : Instr} {s : State} {v : Rsp} (h : ReadValue i s v) :
    StreamsGrowWithin (opcode i) s (s.respond v) := by
  have hmax : 1 ≤ maxWords (opcode i) := by
    rcases h with ⟨key, rfl, -, -⟩ | ⟨rfl, -⟩ | ⟨rfl, -⟩ <;> simp [opcode, maxWords]
  exact ⟨[], [], [], [v], by simpa using hmax⟩

/-- A command appends at most what R41 lists for its row. -/
theorem exec_streamsGrowWithin {i : Instr} {s t : State} (h : exec i s = .next t) :
    StreamsGrowWithin (opcode i) s t := by
  rcases exec_cases h with ⟨rfl, -⟩ | ⟨-, c, -, rfl⟩ | ⟨-, -, ch, rfl, rfl⟩ | ⟨-, -, rfl, rfl⟩ | ⟨-, -, -, code, rfl, rfl⟩ |
    ⟨-, -, rfl, rfl⟩ | ⟨v, hv, rfl⟩
  · exact streamsGrowWithin_refl ..
  · exact streamsGrowWithin_raise ..
  · exact streamsGrowWithin_encChar ..
  · exact streamsGrowWithin_encClose ..
  · exact streamsGrowWithin_pkAdd ..
  · exact streamsGrowWithin_pkClose ..
  · exact streamsGrowWithin_respond hv

/-- So does every accepted word, legal or not. -/
theorem step_streamsGrowWithin {s t : State} {w : Word} {rest : List HostInput} (hin : s.input = .command w :: rest)
    (h : step s = .next t) : StreamsGrowWithin (opOf w) s t := by
  rcases hd : decode w with e | i
  · rw [step_illegal hin hd] at h
    cases h
    exact (streamsGrowWithin_setInput rest).mp (streamsGrowWithin_illegal ..)
  · rw [step_command hin hd] at h
    rw [opOf_of_decode hd]
    exact (streamsGrowWithin_setInput rest).mp (exec_streamsGrowWithin h)

/-- Settles O44: an illegal word appends nothing, and a legal one what its command appends, case by case. -/
theorem streamsOnlyGrowAndByNoMoreThanACommandProduces :
    Obligations.StreamsOnlyGrowAndByNoMoreThanACommandProduces := by
  unfold Obligations.StreamsOnlyGrowAndByNoMoreThanACommandProduces
  intro s t w rest hin h
  exact step_streamsGrowWithin hin h

end Sys2Proof.Machine
end

section
/-! The invariants of R38: they hold right after reset, every command and so every step keeps them, and the settlement of
O47 and O46. -/

namespace Sys2Proof.Machine

/-! ## Words and codes that are never 0 -/

theorem encode_ne_zero_of_faulting {i : Instr} {s : State} {c : FaultCause} (h : Faulting i s c) :
    encode i ≠ 0x0000#16 := by
  intro heq
  have hnum : (encode i).toNat = 0 := by rw [heq]; rfl
  rw [encode_toNat] at hnum
  rcases h with ⟨-, ⟨ch, rfl, -⟩ | ⟨rfl, -⟩ | ⟨code, rfl, -⟩ | ⟨rfl, -⟩⟩ | ⟨-, key, rfl, -⟩ <;> simp at hnum

theorem cause_ne_none_of_faulting {i : Instr} {s : State} {c : FaultCause} (h : Faulting i s c) : c ≠ .none := by
  rcases h with ⟨rfl, -⟩ | ⟨rfl, -⟩ <;> simp

/-- NOP's word is legal (R62). -/
theorem ne_zero_of_decode_error {w : Word} {e : Illegal} (h : decode w = .error e) : w ≠ 0x0000#16 := by
  rintro rfl
  cases h

theorem codeNull_notMem_toggleFrom (m other : Mode) : codeNull ∉ toggleFrom m other := by
  cases m <;> cases other <;> decide

/-- ENC_CHAR never emits NULL (R96): the fixed codes and the letter codes are not 0, and a symbol is encodable only where
its figures code is not 0. -/
theorem codeNull_notMem_charCodes (p : Params) (m : Mode) (shift : LetterCase) (ch : Ch) :
    codeNull ∉ charCodes p m shift ch := by
  have htoggle := codeNull_notMem_toggleFrom m
  unfold charCodes
  split
  case h_1 => decide
  case h_2 | h_3 => simpa [htoggle] using by decide
  case h_4 c hc =>
    have hletter : codeNull ≠ letterCode ch c := fun heq => by
      have := (letterCode_range hc).1
      rw [← heq] at this
      exact absurd this (by decide)
    have hshift : codeNull ≠ codeShift := by decide
    split <;> simp [htoggle, hletter, hshift]
  case h_5 =>
    split
    · simp
    · next h =>
      have hcode : codeNull ≠ figRom p ch := fun heq => by simp [isEncodable, ← heq, codeNull] at h
      simp [htoggle, hcode]

/-! ## The open buffer -/

theorem openBuffer_append_byte (pb : List PbItem) (b : Byte) :
    openBuffer (pb ++ [.byte b]) = openBuffer pb ++ [b] := by
  simp [openBuffer]

/-- Five more bits: either they stay in PK_ACC or eight of all leave as a byte (R100). -/
theorem wholeCodes_pkAdd (pb : List PbItem) (off : BitVec 3) (b : Byte)
    (h : (8 * (openBuffer pb).length + off.toNat) % 5 = 0) :
    (8 * (openBuffer (pb ++ if off.toNat + 5 ≥ 8 then [.byte b] else [])).length + (off + 5#3).toNat) % 5 = 0 := by
  have := off.isLt
  have hoff : (off + 5#3).toNat = (off.toNat + 5) % 8 := by simp
  split
  · have hcarry : (off + 5#3).toNat + 8 = off.toNat + 5 := by omega
    rw [openBuffer_append_byte, List.length_append, List.length_singleton]; omega
  · have hstay : (off + 5#3).toNat = off.toNat + 5 := by omega
    rw [List.append_nil]; omega

/-! ## Each effect keeps the invariants -/

/-- They say nothing of what the host presents next. -/
theorem State.Inv.setInput {s : State} (h : s.Inv) (rest : List HostInput) : State.Inv { s with input := rest } :=
  { h with }

theorem State.inv_applyReset {s : State} (h : s.params.wf = true) : s.applyReset.Inv where
  params := h
  count := by simp [Counters.wf]
  shiftLower := rfl
  beforeClose := by simp
  afterPkClose := by simp
  padZero := by simp
  faultCause := by simp
  faultCmd := by simp
  nullLast := by simp
  noNull := by simp
  wholeCodes := by simp [openBuffer]

theorem State.Inv.raise {s : State} {c : FaultCause} {w : Word} (h : s.Inv) (hc : c ≠ .none) (hw : w ≠ 0x0000#16) :
    (s.raise c w).Inv :=
  { h with
    faultCause := by simpa using hc
    faultCmd := by simpa using hw }

theorem State.Inv.illegal {s : State} {w : Word} (h : s.Inv) (hw : w ≠ 0x0000#16) : (s.illegal w).Inv := by
  rcases s.illegal_cases w with ⟨-, heq⟩ | ⟨-, heq⟩ <;> rw [heq]
  · exact h
  · exact h.raise (by simp) hw

theorem State.Inv.encChar {s : State} (h : s.Inv) (hopen : s.encClosed = false) (ch : Ch) : (s.encChar ch).Inv := by
  rw [State.encChar_eq]
  exact { h with
    count := countAll_wf h.count fun _ => charKeys_lt
    nullLast := fun hclosed => absurd hopen (by simpa using hclosed)
    noNull := fun _ hmem => (List.mem_append.mp hmem).elim (h.noNull hopen) (codeNull_notMem_charCodes _ _ _ _) }

theorem State.Inv.encClose {s : State} (h : s.Inv) (hopen : s.encClosed = false) : s.encClose.Inv :=
  have hcount : s.cs.count codeNull = 0 := List.count_eq_zero.mpr (h.noNull hopen)
  { h with
    beforeClose := by simp [State.encClose]
    afterPkClose := fun hp => absurd (h.afterPkClose hp).1 (by simp [hopen])
    nullLast := fun _ => by simp [State.encClose, hcount]
    noNull := by simp [State.encClose] }

theorem State.Inv.pkAdd {s : State} (h : s.Inv) (hclosed : s.encClosed = true) (hopen : s.pkClosed = false) (code : Code) :
    (s.pkAdd code).Inv := by
  have hpad := State.pkAdd_padZero code h.padZero
  rw [State.pkAdd_eq] at hpad ⊢
  exact { h with
    beforeClose := fun he => absurd hclosed (by simpa using he)
    afterPkClose := fun hp => absurd hopen (by simpa using hp)
    padZero := hpad
    wholeCodes := fun _ => wholeCodes_pkAdd _ _ _ (h.wholeCodes hopen) }

theorem State.Inv.pkClose {s : State} (h : s.Inv) (hclosed : s.encClosed = true) : s.pkClose.Inv := by
  rw [State.pkClose_eq]
  exact { h with
    beforeClose := fun he => absurd hclosed (by simpa using he)
    afterPkClose := fun _ => ⟨hclosed, rfl, rfl⟩
    padZero := by simp
    wholeCodes := by simp }

theorem State.Inv.respond {s : State} (h : s.Inv) (v : Rsp) : (s.respond v).Inv :=
  { h with }

/-! ## Every command and every step keeps them -/

theorem exec_inv {i : Instr} {s t : State} (hinv : s.Inv) (h : exec i s = .next t) : t.Inv := by
  rcases exec_cases h with ⟨rfl, -⟩ | ⟨-, c, hc, rfl⟩ | ⟨-, he, ch, -, rfl⟩ | ⟨-, he, -, rfl⟩ | ⟨-, he, hp, code, -, rfl⟩ |
    ⟨-, he, -, rfl⟩ | ⟨v, -, rfl⟩
  · exact hinv
  · exact hinv.raise (cause_ne_none_of_faulting hc) (encode_ne_zero_of_faulting hc)
  · exact hinv.encChar he ch
  · exact hinv.encClose he
  · exact hinv.pkAdd he hp code
  · exact hinv.pkClose he
  · exact hinv.respond v

theorem step_inv {s t : State} (hinv : s.Inv) (h : step s = .next t) : t.Inv := by
  rcases step_cases h with ⟨-, rfl⟩ | ⟨rest, -, rfl⟩ | ⟨w, rest, i, -, -, h⟩ | ⟨w, rest, e, -, hd, rfl⟩
  · exact hinv
  · exact State.inv_applyReset hinv.params
  · exact exec_inv (hinv.setInput rest) h
  · exact (hinv.setInput rest).illegal (ne_zero_of_decode_error hd)

/-- Settles O47: reset establishes the invariants, and every command, legal or not, keeps them, case by case. -/
theorem everyStepKeepsTheInvariants : Obligations.EveryStepKeepsTheInvariants := by
  unfold Obligations.EveryStepKeepsTheInvariants
  intro s t hinv h
  exact step_inv hinv h

/-! ## After reset -/

/-- The block is built with lawful parameters, whatever the characters of FIG_PUNCT are (R9). -/
theorem configParams_wf : Config.params.wf = true := by
  have hpunct : figPunctLegal Config.figPunct = true := by
    unfold Config.figPunct
    split
    · assumption
    · decide
  simpa [Params.wf, Config.params, Config.cntWDefault] using hpunct

theorem reset_codeStreamWellModed : State.reset.CodeStreamWellModed where
  mode := rfl
  lettersOnly before c rest h := absurd h (by simp [State.reset])
  afterToggle before rest h := absurd h (by simp [State.reset])

/-- Settles O46: the reset state is what a reset edge leaves, its code stream is empty and its counters are all 0. -/
theorem invariantsHoldAfterReset : Obligations.InvariantsHoldAfterReset := by
  unfold Obligations.InvariantsHoldAfterReset
  exact ⟨State.inv_applyReset (s := State.reset) configParams_wf, reset_codeStreamWellModed, fun _ _ => rfl⟩

end Sys2Proof.Machine
end

section
/-! The two status words field by field (R35, R36), and the settlement of O40 and O41. -/

namespace Sys2Proof.Machine

/-! ## The flags as numbers -/

theorem Mode.bit_toNat_eq_one {m : Mode} : m.bit.toNat = 1 ↔ m = .figures := by cases m <;> decide

theorem LetterCase.bit_toNat_eq_one {c : LetterCase} : c.bit.toNat = 1 ↔ c = .upper := by cases c <;> decide

theorem ofBool_toNat_eq_one {b : Bool} : (BitVec.ofBool b).toNat = 1 ↔ b = true := by cases b <;> decide

theorem getLsbD_iff_toNat {n : Nat} (v : BitVec n) (k : Nat) : v.getLsbD k = true ↔ v.toNat / 2 ^ k % 2 = 1 := by
  simp [BitVec.getLsbD, Nat.testBit_eq_decide_div_mod_eq]

/-- A field of a word is `f` where the number of the word has the number of `f` at its place. -/
theorem extractLsb'_eq_of_toNat {n len : Nat} {v : BitVec n} {f : BitVec len} {lo : Nat}
    (h : v.toNat / 2 ^ lo % 2 ^ len = f.toNat) : v.extractLsb' lo len = f :=
  BitVec.eq_of_toNat_eq (by rw [BitVec.extractLsb'_toNat, Nat.shiftRight_eq_div_pow, h])

/-! ## The STATUS word -/

/-- R35's layout as a sum. -/
theorem State.statusWord_toNat (s : State) : s.statusWord.toNat =
    s.mode.bit.toNat + 2 * s.shiftStatus.bit.toNat + 4 * (BitVec.ofBool s.encClosed).toNat +
      8 * (BitVec.ofBool s.pkClosed).toNat + 16 * s.pkOff.toNat + 128 * (BitVec.ofBool s.fault).toNat +
      256 * s.faultCause.bits.toNat + 65536 * s.pkAcc.toNat := by
  rw [State.statusWord, BitVec.toNat_setWidth_of_le (by decide)]
  simp only [toNat_append_add]
  rw [BitVec.toNat_ofNat]
  omega

/-- RD_STATUS answers the STATUS word in every state (R109). -/
theorem exec_rdStatus (s : State) : exec .rdStatus s = .next (s.respond s.statusWord) := rfl

/-- Settles O40: the STATUS word is a sum of fields that do not overlap, so each field is read back from its number. -/
theorem rdStatusAnswersTheStatusLayout : Obligations.RdStatusAnswersTheStatusLayout := by
  unfold Obligations.RdStatusAnswersTheStatusLayout
  intro s
  have hword := s.statusWord_toNat
  have hbits : s.statusWord.extractLsb' 8 2 = s.faultCause.bits := extractLsb'_eq_of_toNat (by omega)
  refine ⟨s.statusWord, exec_rdStatus s, ?mode, ?shift, ?encClosed, ?pkClosed, ?pkOff, ?fault, ?none, ?misuse, ?illegal,
    ?reserved, ?pkAcc, ?above⟩
  case mode => rw [getLsbD_iff_toNat, ← Mode.bit_toNat_eq_one]; omega
  case shift => rw [getLsbD_iff_toNat, ← LetterCase.bit_toNat_eq_one]; omega
  case encClosed => rw [Bool.eq_iff_iff, getLsbD_iff_toNat, ← ofBool_toNat_eq_one]; omega
  case pkClosed => rw [Bool.eq_iff_iff, getLsbD_iff_toNat, ← ofBool_toNat_eq_one]; omega
  case pkOff => exact extractLsb'_eq_of_toNat (by omega)
  case fault => rw [Bool.eq_iff_iff, getLsbD_iff_toNat, ← ofBool_toNat_eq_one]; omega
  case none => intro h; rw [hbits, h]; rfl
  case misuse => intro h; rw [hbits, h]; rfl
  case illegal => intro h; rw [hbits, h]; rfl
  case reserved => exact extractLsb'_eq_of_toNat (by rw [BitVec.toNat_ofNat]; omega)
  case pkAcc => exact extractLsb'_eq_of_toNat (by omega)
  case above => exact extractLsb'_eq_of_toNat (by rw [BitVec.toNat_ofNat]; omega)

/-! ## The FAULT_CMD word -/

theorem State.faultCmdWord_toNat (s : State) : s.faultCmdWord.toNat = s.faultCmd.toNat :=
  BitVec.toNat_setWidth_of_le (by decide)

/-- Settles O41: zero-extension keeps the number of FAULT_CMD, which is 0 while FAULT = 0. -/
theorem rdFaultAnswersTheFaultingWord : Obligations.RdFaultAnswersTheFaultingWord := by
  unfold Obligations.RdFaultAnswersTheFaultingWord
  intro s
  have hword := s.faultCmdWord_toNat
  refine ⟨s.faultCmdWord, rfl, ?low, ?high, ?zero⟩
  case low => exact extractLsb'_eq_of_toNat (by omega)
  case high => exact extractLsb'_eq_of_toNat (by rw [BitVec.toNat_ofNat]; omega)
  case zero =>
    intro hinv hf
    rw [State.faultCmdWord, hinv.faultCmd.mp hf]
    rfl

end Sys2Proof.Machine
end

section
/-! Which command writes which entry of the state (R15), the settlement of O43; and the counters that no character is
counted under (R24), the settlement of O27. -/

namespace Sys2Proof.Machine

/-! ## The writers of each entry -/

/-- Settles O43: each of the seven outcomes of a command updates only entries that name the command as a writer. -/
theorem eachEntryIsWrittenOnlyByItsWriters : Obligations.EachEntryIsWrittenOnlyByItsWriters := by
  unfold Obligations.EachEntryIsWrittenOnlyByItsWriters
  intro i s t h
  rcases exec_cases h with ⟨rfl, -⟩ | ⟨hf, c, -, rfl⟩ | ⟨-, -, ch, rfl, rfl⟩ | ⟨-, -, rfl, rfl⟩ | ⟨-, -, -, code, rfl, rfl⟩ |
    ⟨-, -, rfl, rfl⟩ | ⟨v, hv, rfl⟩
  · simp
  · simp [hf]
  · simp [State.encChar_eq]
  · simp [State.encClose]
  · rw [State.pkAdd_eq]; simp
  · simp [State.pkClose_eq]
  · rcases hv with ⟨key, rfl, -⟩ | ⟨rfl, -⟩ | ⟨rfl, -⟩ <;> simp

/-! ## What a step does to the counters -/

/-- Only ENC_CHAR writes the counters (R23): it counts its character's keys. -/
theorem exec_count {i : Instr} {s t : State} (h : exec i s = .next t) :
    t.count = s.count ∨ ∃ ch, t.count = countAll s.params.cntW (charKeys s.shiftStatus ch) s.count := by
  rcases exec_cases h with ⟨rfl, -⟩ | ⟨-, c, -, rfl⟩ | ⟨-, -, ch, -, rfl⟩ | ⟨-, -, -, rfl⟩ | ⟨-, -, -, code, -, rfl⟩ |
    ⟨-, -, -, rfl⟩ | ⟨v, -, rfl⟩
  · exact .inl rfl
  · exact .inl rfl
  · exact .inr ⟨ch, by rw [State.encChar_eq]⟩
  · exact .inl rfl
  · exact .inl (by rw [State.pkAdd_eq])
  · exact .inl (by rw [State.pkClose_eq])
  · exact .inl rfl

/-- A step keeps the counters, clears them, or counts one character's keys. -/
theorem step_count {s t : State} (h : step s = .next t) :
    t.count = s.count ∨ t.count = [] ∨
      ∃ ch, t.count = countAll s.params.cntW (charKeys s.shiftStatus ch) s.count := by
  rcases step_cases h with ⟨-, rfl⟩ | ⟨rest, -, rfl⟩ | ⟨w, rest, i, -, -, h⟩ | ⟨w, rest, e, -, -, rfl⟩
  · exact .inl rfl
  · exact .inr (.inl rfl)
  · exact (exec_count h).imp_right .inr
  · rcases State.illegal_cases { s with input := rest } w with ⟨-, heq⟩ | ⟨-, heq⟩ <;> rw [heq] <;> exact .inl rfl

/-! ## The silent keys -/

/-- No character is counted under a silent key: a letter counts under its uppercase form, and a symbol that is not
skipped is none of the silent characters (R91, R92, R94). -/
theorem silentKey_of_mem_charKeys {shift : LetterCase} {ch : Ch} {k : Nat} (h : k ∈ charKeys shift ch) :
    silentKey k = false := by
  have hupper : ∀ n, 0x41 ≤ n → n ≤ 0x5A → silentKey n = false := by
    intro n hlo hhi; simp [silentKey]; omega
  have hsymbol : ∀ ch, classify ch = .symbol → isSkipped ch = false → silentKey ch.toNat = false := by decide
  unfold charKeys at h
  split at h
  case h_1 | h_2 => cases h
  case h_3 => rw [List.mem_singleton.mp h]; rfl
  case h_4 c hc =>
    obtain ⟨hlo, hhi⟩ := upperOf_range hc
    split at h
    · rw [List.mem_singleton.mp h]; exact hupper _ hlo hhi
    · rcases List.mem_pair.mp h with rfl | rfl
      · exact hupper _ hlo hhi
      · rfl
  case h_5 hc =>
    split at h
    · cases h
    · next hskip => rw [List.mem_singleton.mp h]; exact hsymbol ch hc (by simpa using hskip)

/-- With SHIFT_STATUS lowercase every other character is counted under itself. -/
theorem mem_charKeys_of_not_silent (ch : Ch) (h : silentKey ch.toNat = false) : ch.toNat ∈ charKeys .lower ch := by
  revert ch; decide

theorem exists_mem_charKeys {k : Nat} (hk : k ≤ 0x100) (h : silentKey k = false) : ∃ ch, k ∈ charKeys .lower ch := by
  by_cases hshift : k = 0x100
  · exact ⟨0x41#8, by subst hshift; decide⟩
  · have hnum : (BitVec.ofNat 8 k).toNat = k := by rw [BitVec.toNat_ofNat]; omega
    exact ⟨BitVec.ofNat 8 k, by simpa [hnum] using mem_charKeys_of_not_silent (BitVec.ofNat 8 k) (by rwa [hnum])⟩

theorem step_silentKeysZero {s t : State} (hzero : s.SilentKeysZero) (h : step s = .next t) : t.SilentKeysZero := by
  intro k hk
  rcases step_count h with hc | hc | ⟨ch, hc⟩ <;> rw [hc]
  · exact hzero k hk
  · rfl
  · have hnot : k ∉ charKeys s.shiftStatus ch := fun hmem => by simp [silentKey_of_mem_charKeys hmem] at hk
    rw [countAll_get_of_notMem hnot, hzero k hk]

/-- Settles O27: the silent keys are no character's; every other key is its own character's, and SHIFT is counted before
an uppercase letter. -/
theorem silentCountersStayZeroAndOthersCount : Obligations.SilentCountersStayZeroAndOthersCount := by
  unfold Obligations.SilentCountersStayZeroAndOthersCount
  refine ⟨fun s t => step_silentKeysZero, fun k hk hloud => ?_⟩
  obtain ⟨ch, hmem⟩ := exists_mem_charKeys hk hloud
  refine ⟨ch, fun s hopen hlower => ?_⟩
  obtain ⟨hf, hc⟩ := hopen
  refine ⟨s.encChar ch, exec_encChar_open ch hf hc, ?_⟩
  rw [State.encChar_eq]
  simp only [hlower, countAll_get k (charKeys_nodup ..), if_pos hmem]

end Sys2Proof.Machine
end

section
/-! A command's effect is blind to the streams (R37): one closure lemma for each way the effects are put together, and the
settlement of O45. -/

namespace Sys2Proof.Machine

/-- `s` with other contents of the four streams. -/
def State.setStreams (s : State) (cs : List Code) (pb : List PbItem) (diag : List DiagItem) (rsp : List Rsp) : State :=
  { s with cs := cs, pb := pb, diag := diag, rsp := rsp }

/-- Whatever the streams of `s` hold, `f` appends the same items to them and does the same to every other entry. -/
def StreamBlind (f : State → State) : Prop :=
  ∀ s cs pb diag rsp, ∃ codes bytes diags words,
    f s = (f s).setStreams (s.cs ++ codes) (s.pb ++ bytes) (s.diag ++ diags) (s.rsp ++ words) ∧
    f (s.setStreams cs pb diag rsp) = (f s).setStreams (cs ++ codes) (pb ++ bytes) (diag ++ diags) (rsp ++ words)

/-- A value of the registers, the counters and the parameters alone. -/
def OfRegisters {α : Sort _} (v : State → α) : Prop := ∀ s cs pb diag rsp, v (s.setStreams cs pb diag rsp) = v s

/-! ## Branches and faults -/

/-- A branch on the registers alone. -/
theorem StreamBlind.ite {p : State → Prop} [DecidablePred p] {f g : State → State} (hf : StreamBlind f)
    (hg : StreamBlind g) (hp : OfRegisters p) :
    StreamBlind fun s => if p s then f s else g s := by
  intro s cs pb diag rsp
  have hsame : p (s.setStreams cs pb diag rsp) ↔ p s := iff_of_eq (hp ..)
  by_cases h : p s
  · simpa only [hsame, if_pos h] using hf s cs pb diag rsp
  · simpa only [hsame, if_neg h] using hg s cs pb diag rsp

theorem streamBlind_id : StreamBlind fun s => s := by
  intro s cs pb diag rsp
  exact ⟨[], [], [], [], by simp [State.setStreams]⟩

theorem streamBlind_raise (c : FaultCause) (w : Word) : StreamBlind fun s => s.raise c w := by
  intro s cs pb diag rsp
  exact ⟨[], [], [], [], by simp [State.setStreams, State.raise]⟩

theorem streamBlind_illegal (w : Word) : StreamBlind fun s => s.illegal w :=
  streamBlind_id.ite (streamBlind_raise _ _) fun _ _ _ _ _ => rfl

/-- The order of checks of R114, where the misuse is a condition on the registers (R115). -/
theorem StreamBlind.guarded {misuse : State → Bool} {effect : State → State} (w : Word) (heffect : StreamBlind effect)
    (hmisuse : OfRegisters misuse) :
    StreamBlind fun s => s.guarded (misuse s) w effect :=
  streamBlind_id.ite ((streamBlind_raise _ _).ite heffect fun s cs pb diag rsp => by rw [hmisuse])
    fun _ _ _ _ _ => rfl

/-! ## The effects -/

theorem streamBlind_encChar (ch : Ch) : StreamBlind fun s => s.encChar ch := by
  intro s cs pb diag rsp
  exact ⟨charCodes s.params s.mode s.shiftStatus ch, [], charDiags s.params ch, [],
    by simp [State.setStreams, State.encChar_eq]⟩

theorem streamBlind_encClose : StreamBlind State.encClose := by
  intro s cs pb diag rsp
  exact ⟨[codeNull], [], [], [], by simp [State.setStreams, State.encClose, State.emitCode]⟩

theorem streamBlind_pkAdd (code : Code) : StreamBlind fun s => s.pkAdd code := by
  refine StreamBlind.ite ?carry ?stay fun _ _ _ _ _ => rfl
  case carry =>
    intro s cs pb diag rsp
    exact ⟨[], [.byte ((pkWindow s.pkAcc s.pkOff code).extractLsb' 8 8)], [], [],
      by simp [State.setStreams, State.emitByte]⟩
  case stay =>
    intro s cs pb diag rsp
    exact ⟨[], [], [], [], by simp [State.setStreams]⟩

theorem streamBlind_pkClose : StreamBlind State.pkClose := by
  intro s cs pb diag rsp
  exact ⟨[], (if s.pkOff.toNat > 0 then [.byte s.pkAcc] else []) ++ [.bufferEnd], [], [],
    by simp [State.setStreams, State.pkClose_eq]⟩

/-- An answer that is a function of the registers. -/
theorem streamBlind_respond {v : State → Rsp} (hv : OfRegisters v) :
    StreamBlind fun s => s.respond (v s) := by
  intro s cs pb diag rsp
  exact ⟨[], [], [], [v s], by simpa [State.setStreams, State.respond] using hv s cs pb diag rsp⟩

/-! ## Every command -/

/-- A command's next state is a function of the state that is blind to the streams. -/
theorem exec_streamBlind (i : Instr) : ∃ f, StreamBlind f ∧ ∀ s, exec i s = .next (f s) := by
  cases i with
  | nop => exact ⟨_, streamBlind_id, fun _ => rfl⟩
  | encChar ch => exact ⟨_, (streamBlind_encChar ch).guarded _ fun _ _ _ _ _ => rfl, fun _ => rfl⟩
  | encClose => exact ⟨_, streamBlind_encClose.guarded _ fun _ _ _ _ _ => rfl, fun _ => rfl⟩
  | pkAdd code => exact ⟨_, (streamBlind_pkAdd code).guarded _ fun _ _ _ _ _ => rfl, fun _ => rfl⟩
  | pkClose => exact ⟨_, streamBlind_pkClose.guarded _ fun _ _ _ _ _ => rfl, fun _ => rfl⟩
  | rdStatus => exact ⟨_, streamBlind_respond fun _ _ _ _ _ => rfl, fun _ => rfl⟩
  | rdFault => exact ⟨_, streamBlind_respond fun _ _ _ _ _ => rfl, fun _ => rfl⟩
  | rdCount key =>
    cases hkey : keyIndex key with
    | some k =>
      exact ⟨_, streamBlind_respond (v := fun s => BitVec.ofNat 32 (s.count.get k)) fun _ _ _ _ _ => rfl,
        fun s => by simp [exec, execRdCount, hkey]⟩
    | none => exact ⟨_, streamBlind_illegal (encode (.rdCount key)), fun s => by simp [exec, execRdCount, hkey]⟩

/-- Settles O45: the effect of every command is put together from parts that are blind to the streams. -/
theorem effectsDependOnTheRegistersAlone : Obligations.EffectsDependOnTheRegistersAlone := by
  unfold Obligations.EffectsDependOnTheRegistersAlone
  intro i s t cs pb diag rsp h
  obtain ⟨f, hblind, hexec⟩ := exec_streamBlind i
  obtain ⟨codes, bytes, diags, words, hsame, hother⟩ := hblind s cs pb diag rsp
  rw [hexec] at h
  cases h
  exact ⟨codes, bytes, diags, words, hsame, (hexec _).trans (congrArg _ hother)⟩

end Sys2Proof.Machine
end

section
/-! A command's word decodes to the command, what a step does with the word `withFetchWord` presents, and the settlement
of O8. -/

namespace Sys2Proof

/-- The decoder undoes the encoder on well-formed commands (R58 to R60): the command's row of the opcode map holds its
word, and the row's field is the operand. -/
theorem decode_encode {i : Instr} (h : i.wf = true) : decode (encode i) = .ok i := by
  rw [decode_ok_iff]
  cases i with
  | encChar ch =>
    have hword : (encode (.encChar ch)).toNat = 0x1000 + ch.toNat := encode_toNat _
    have hfield : chOf (encode (.encChar ch)) = ch := BitVec.eq_of_toNat_eq (by rw [chOf_toNat]; omega)
    simp only [hfield, and_true]; omega
  | pkAdd code =>
    have hword : (encode (.pkAdd code)).toNat = 0x3000 + code.toNat := encode_toNat _
    have hfield : codeOf (encode (.pkAdd code)) = code := BitVec.eq_of_toNat_eq (by rw [codeOf_toNat]; omega)
    simp only [hfield, and_true]; omega
  | rdCount key =>
    have hword : (encode (.rdCount key)).toNat = 0x5000 + key.toNat := encode_toNat _
    have hfield : keyOf (encode (.rdCount key)) = key := BitVec.eq_of_toNat_eq (by rw [keyOf_toNat]; omega)
    have hkey : key.toNat ≤ 0x100 := of_decide_eq_true h
    simp only [hfield, and_true]; omega
  | _ => simp [encode_toNat]

/-- A word of the opcode table's 16 bits is the word its number writes. -/
theorem tableWord_toNat (w : Word) : tableWord 16 w.toNat = w := by
  rw [tableWord, tableBits, Nat.mod_eq_of_lt w.isLt, BitVec.ofNat_toNat, BitVec.setWidth_eq]

end Sys2Proof

namespace Sys2Proof.Machine

/-- Settles O8: a step is `accept` on the word taken, and the word `withFetchWord` presents decodes to its command. -/
theorem stepRunsTheDecodedCommand : Obligations.StepRunsTheDecodedCommand := by
  unfold Obligations.StepRunsTheDecodedCommand
  refine ⟨fun _ _ _ _ => step_command, fun _ => step_wait, fun s i hwf => ?_⟩
  have hin : (s.withFetchWord 16 (encode i).toNat).input = .command (encode i) :: s.input := by
    simp [State.withFetchWord, tableWord_toNat]
  exact step_command hin (decode_encode hwf)

end Sys2Proof.Machine
end

section
/-! FIG_ROM as the figures table (R43): which character holds each of the codes 1 to 27, and the settlement of O15. -/

namespace Sys2Proof.Machine

/-- No entry of FIG_PUNCT is a digit, ':' or ';' (R9). -/
theorem figPunctEntry_spec {ch : Ch} (h : figPunctEntry ch = true) :
    isAsciiPunct ch = true ∧ ¬ (0x30 ≤ ch.toNat ∧ ch.toNat ≤ 0x3B) := by
  revert ch; decide

/-- `punctCode` numbers the entries of a list from 1. -/
theorem punctCode_toNat_eq_succ_iff {l : List Ch} (hnodup : l.Nodup) (hlen : l.length < 31) (ch : Ch) (n : Nat) :
    (punctCode l ch).toNat = n + 1 ↔ l[n]? = some ch := by
  unfold punctCode
  split
  · next i hi =>
    obtain ⟨hlt, hat, -⟩ := List.idxOf?_eq_some_iff.mp hi
    have hcode : (BitVec.ofNat 5 (i + 1)).toNat = i + 1 := by rw [BitVec.toNat_ofNat]; omega
    rw [hcode, List.getElem?_eq_some_iff]
    constructor
    · intro h
      obtain rfl : i = n := by omega
      exact ⟨hlt, hat⟩
    · rintro ⟨hlt', hat'⟩
      rw [hnodup.getElem_inj_iff.mp (hat.trans hat'.symm)]
  · next hi =>
    have hmem : ch ∉ l := List.idxOf?_eq_none_iff.mp hi
    exact ⟨fun h => by simp at h, fun h => absurd (List.mem_of_getElem? h) hmem⟩

/-- The digits, ':' and ';' stand in a row in ASCII and hold the codes 16 to 27 (R43). -/
theorem figRom_toNat_of_digit_or_colon (p : Params) {ch : Ch} (h : 0x30 ≤ ch.toNat ∧ ch.toNat ≤ 0x3B) :
    (figRom p ch).toNat = ch.toNat - 0x20 := by
  unfold figRom
  split
  · simp only [BitVec.toNat_add, BitVec.toNat_setWidth, BitVec.toNat_sub, BitVec.toNat_ofNat]; omega
  split
  · next heq => rw [heq]; rfl
  split
  · next heq => rw [heq]; rfl
  · bv_omega

/-- Any other character has its code from FIG_PUNCT, where no character but ASCII punctuation stands (R9). -/
theorem figRom_eq_punctCode {p : Params} (hp : p.wf = true) {ch : Ch} (h : ¬ (0x30 ≤ ch.toNat ∧ ch.toNat ≤ 0x3B)) :
    figRom p ch = punctCode p.figPunct ch := by
  obtain ⟨-, -, hentry, -⟩ := Params.wf_iff.mp hp
  have hdigit : ¬ (0x30 ≤ ch.toNat ∧ ch.toNat ≤ 0x39) := by omega
  have hcolon : ch ≠ 0x3A#8 := by bv_omega
  have hsemicolon : ch ≠ 0x3B#8 := by bv_omega
  rw [figRom, if_neg hdigit, if_neg hcolon, if_neg hsemicolon]
  split
  · rfl
  · next hpunct =>
    have hmem : ch ∉ p.figPunct := fun hmem => hpunct (figPunctEntry_spec (hentry ch hmem)).1
    simp [punctCode, List.idxOf?_eq_none_iff.mpr hmem]

/-- The figures table read from the code: code n + 1 is entry n of FIG_PUNCT or, from 16 to 27, the character 0x20
above it (R43). -/
theorem figRom_toNat_eq_succ_iff {p : Params} (hp : p.wf = true) (ch : Ch) (n : Nat) :
    (figRom p ch).toNat = n + 1 ↔ p.figPunct[n]? = some ch ∨ (15 ≤ n ∧ n < 27 ∧ ch.toNat = n + 0x21) := by
  obtain ⟨-, hlen, hentry, hnodup⟩ := Params.wf_iff.mp hp
  by_cases h : 0x30 ≤ ch.toNat ∧ ch.toNat ≤ 0x3B
  · have hnot : p.figPunct[n]? ≠ some ch := fun hat =>
      (figPunctEntry_spec (hentry ch (List.mem_of_getElem? hat))).2 h
    rw [figRom_toNat_of_digit_or_colon p h]
    simp only [hnot, false_or]; omega
  · have hnot : ¬ (15 ≤ n ∧ n < 27 ∧ ch.toNat = n + 0x21) := by omega
    rw [figRom_eq_punctCode hp h, punctCode_toNat_eq_succ_iff hnodup (by omega)]
    simp only [hnot, or_false]

/-- A nonzero entry of FIG_ROM is a code n + 1. -/
theorem figRom_toNat_eq_succ_of_ne_zero {p : Params} {ch : Ch} (h : figRom p ch ≠ 0#5) :
    ∃ n, (figRom p ch).toNat = n + 1 :=
  Nat.exists_eq_succ_of_ne_zero fun hzero => h (BitVec.eq_of_toNat_eq hzero)

/-- FIG_ROM is injective where it is nonzero (R43): a code of FIG_PUNCT is below 16. -/
theorem figRom_injective {p : Params} (hp : p.wf = true) {a b : Ch} (hne : figRom p a ≠ 0#5)
    (heq : figRom p a = figRom p b) : a = b := by
  obtain ⟨-, hlen, -, -⟩ := Params.wf_iff.mp hp
  obtain ⟨n, hn⟩ := figRom_toNat_eq_succ_of_ne_zero hne
  have hlt {ch : Ch} (hat : p.figPunct[n]? = some ch) : n < 15 := hlen ▸ (List.getElem?_eq_some_iff.mp hat).1
  rcases (figRom_toNat_eq_succ_iff hp a n).mp hn with ha | ⟨hle, -, ha⟩ <;>
    rcases (figRom_toNat_eq_succ_iff hp b n).mp (heq ▸ hn) with hb | ⟨hle', -, hb⟩
  · exact Option.some.inj (ha.symm.trans hb)
  · have := hlt ha; omega
  · have := hlt hb; omega
  · exact BitVec.eq_of_toNat_eq (ha.trans hb.symm)

/-- Settles O15: the rows of R43's table are the two halves of the figures table read from the code, and a character of
neither half has no code. -/
theorem figRomHoldsTheFiguresTable : Obligations.FigRomHoldsTheFiguresTable := by
  unfold Obligations.FigRomHoldsTheFiguresTable
  intro p hp
  refine ⟨fun i ch hat => (figRom_toNat_eq_succ_iff hp ch i).mpr (.inl hat), fun ch hlo hhi => ?_,
    figRom_toNat_of_digit_or_colon p (by decide), figRom_toNat_of_digit_or_colon p (by decide),
    fun ch hmem hdigit hcolon hsemicolon => ?_, fun _ _ => figRom_injective hp⟩
  · rw [figRom_toNat_of_digit_or_colon p ⟨hlo, by omega⟩]; omega
  · by_contra hne
    obtain ⟨n, hn⟩ := figRom_toNat_eq_succ_of_ne_zero hne
    rcases (figRom_toNat_eq_succ_iff hp ch n).mp hn with hat | ⟨hlo, hhi, hch⟩
    · exact hmem (List.mem_of_getElem? hat)
    · bv_omega

end Sys2Proof.Machine
end

section
/-! The decoder and the encoder against each other and against the rules of 30_encoding.md: which words decode (R61),
which row of the opcode map they select (R60), what their operands are (R59), which words take a fault (R62), and the
settlement of O2, O3, O4, O5, O6, O7, O1 and O14. -/

namespace Sys2Proof

/-- Settles O2: each command's word stands in the command's own row of the opcode map, and the row's field is the operand. -/
theorem decodeOfEncodedCommandIsTheCommand : Obligations.DecodeOfEncodedCommandIsTheCommand := by
  unfold Obligations.DecodeOfEncodedCommandIsTheCommand
  exact fun _ => decode_encode

/-! ## A word that decodes is its command's word -/

/-- The bits outside the operand are fixed by the row, and the operand is the rest of the word. -/
theorem encode_of_decode {w : Word} {i : Instr} (h : decode w = .ok i) : encode i = w := by
  refine BitVec.eq_of_toNat_eq ((encode_toNat i).trans ?_)
  rcases decode_ok_iff.mp h with ⟨hw, rfl⟩ | ⟨hw, rfl⟩ | ⟨hw, rfl⟩ | ⟨hw, rfl⟩ | ⟨hw, rfl⟩ | ⟨hw, -, rfl⟩ | ⟨hw, rfl⟩ |
    ⟨hw, rfl⟩ <;> simp only [chOf_toNat, codeOf_toNat, keyOf_toNat] <;> omega

/-- Only KEY's range is narrower than its field (R58), and the decoder checks it (R61). -/
theorem wf_of_decode {w : Word} {i : Instr} (h : decode w = .ok i) : i.wf = true := by
  cases i with
  | rdCount key =>
    obtain ⟨-, hkey, rfl⟩ : w.toNat / 512 = 0x28 ∧ w.toNat % 512 ≤ 0x100 ∧ key = keyOf w := by
      simpa [decode_ok_iff] using h
    exact decide_eq_true (by rwa [keyOf_toNat])
  | _ => rfl

/-- Settles O3: the row of the opcode map that the word is in fixes every bit but the operand's. -/
theorem encodeOfDecodedWordIsTheWord : Obligations.EncodeOfDecodedWordIsTheWord := by
  unfold Obligations.EncodeOfDecodedWordIsTheWord
  exact fun _ _ h => ⟨encode_of_decode h, wf_of_decode h⟩

/-- Settles O6: an operand is what its command's word adds to the row's match, and PK_ADD takes every CODE. -/
theorem operandsAreTheirFieldsUnchanged : Obligations.OperandsAreTheirFieldsUnchanged := by
  unfold Obligations.OperandsAreTheirFieldsUnchanged
  refine ⟨fun w ch h => ?_, fun w code h => ?_, fun w key h => ?_, fun code => ⟨_, decode_encode rfl⟩⟩
  all_goals
    have hword := congrArg BitVec.toNat (encode_of_decode h)
    rw [encode_toNat] at hword
    dsimp only at hword
    omega

/-! ## Legal words (R61) -/

/-- Legality by the number of the word: the eight rows of the opcode map, without their commands. -/
theorem legal_iff_toNat {w : Word} : legal w = true ↔
    w.toNat = 0x0000 ∨ w.toNat / 256 = 0x10 ∨ w.toNat = 0x2000 ∨ w.toNat / 32 = 0x180 ∨ w.toNat = 0x4000 ∨
    (w.toNat / 512 = 0x28 ∧ w.toNat % 512 ≤ 0x100) ∨ w.toNat = 0x6000 ∨ w.toNat = 0x7000 := by
  simp [legal_iff, decode_ok_iff, exists_or]

/-- A field of a word, compared as a number. -/
theorem extractLsb'_eq_iff_toNat {n len : Nat} {v : BitVec n} {f : BitVec len} {lo : Nat} :
    v.extractLsb' lo len = f ↔ v.toNat / 2 ^ lo % 2 ^ len = f.toNat := by
  rw [← BitVec.toNat_inj, BitVec.extractLsb'_toNat, Nat.shiftRight_eq_div_pow]

theorem opOf_eq_iff {w : Word} {op : BitVec 4} : opOf w = op ↔ w.toNat / 4096 = op.toNat := by
  rw [← BitVec.toNat_inj, opOf_toNat]

/-- `Legal(w)` as R61 lists its cases. -/
theorem legal_iff_fields {w : Word} : legal w = true ↔
    (opOf w ∈ [0x0#4, 0x2#4, 0x4#4, 0x6#4, 0x7#4] ∧ w.extractLsb' 0 12 = 0#12) ∨
    (opOf w = 0x1#4 ∧ w.extractLsb' 8 4 = 0#4) ∨
    (opOf w = 0x3#4 ∧ w.extractLsb' 5 7 = 0#7) ∨
    (opOf w = 0x5#4 ∧ w.extractLsb' 9 3 = 0#3 ∧ (w.extractLsb' 0 9).toNat ≤ 0x100) := by
  have hkey : (w.extractLsb' 0 9).toNat = w.toNat % 512 := keyOf_toNat w
  simp only [legal_iff_toNat, List.mem_cons, List.not_mem_nil, or_false, opOf_eq_iff, extractLsb'_eq_iff_toNat, hkey,
    BitVec.toNat_ofNat]
  omega

end Sys2Proof

namespace Sys2Proof.Machine

/-- An illegal word raises ILLEGAL_COMMAND while FAULT = 0 (R116). -/
theorem step_illegal_open {s : State} {w : Word} {rest : List HostInput} (hin : s.input = .command w :: rest)
    (hf : s.fault = false) (h : legal w = false) :
    step s = .next (State.raise { s with input := rest } .illegalCommand w) := by
  obtain ⟨e, hd⟩ := legal_eq_false_iff.mp h
  rw [step_illegal hin hd, State.illegal, hf]
  rfl

/-- Settles O4: the legal words as numbers are R61's cases read field by field, and any other word raises. -/
theorem legalWordsAreTheCasesOfTheLegalityRule : Obligations.LegalWordsAreTheCasesOfTheLegalityRule := by
  unfold Obligations.LegalWordsAreTheCasesOfTheLegalityRule
  exact fun w => ⟨legal_iff_fields, fun h s rest hin hf => step_illegal_open hin hf h⟩

end Sys2Proof.Machine

namespace Sys2Proof

/-! ## The opcode map (R60) -/

/-- Under a mask of all bits from `k` up, a word is compared by what stands above its low `k` bits. -/
theorem and_highMask_eq_iff {w value mask : Word} (k high : Nat) (hmask : mask = BitVec.allOnes 16 <<< k)
    (hvalue : value.toNat = high * 2 ^ k) : w &&& mask = value ↔ w.toNat / 2 ^ k = high := by
  have hlt : w.toNat / 2 ^ k * 2 ^ k < 2 ^ 16 := (Nat.div_mul_le_self ..).trans_lt w.isLt
  rw [hmask, ← BitVec.shiftLeft_ushiftRight, ← BitVec.toNat_inj, BitVec.toNat_shiftLeft, BitVec.toNat_ushiftRight,
    Nat.shiftRight_eq_div_pow, Nat.shiftLeft_eq, Nat.mod_eq_of_lt hlt, hvalue, Nat.mul_left_inj (by positivity)]

/-- The words of each mnemonic, by the number of the word. -/
theorem exists_decode_mnemonic_iff {w : Word} {name : String} : (∃ i, decode w = .ok i ∧ i.mnemonic = name) ↔
    (w.toNat = 0x0000 ∧ name = "NOP") ∨ (w.toNat / 256 = 0x10 ∧ name = "ENC_CHAR") ∨
    (w.toNat = 0x2000 ∧ name = "ENC_CLOSE") ∨ (w.toNat / 32 = 0x180 ∧ name = "PK_ADD") ∨
    (w.toNat = 0x4000 ∧ name = "PK_CLOSE") ∨
    (w.toNat / 512 = 0x28 ∧ w.toNat % 512 ≤ 0x100 ∧ name = "RD_COUNT") ∨
    (w.toNat = 0x6000 ∧ name = "RD_STATUS") ∨ (w.toNat = 0x7000 ∧ name = "RD_FAULT") := by
  simp only [decode_ok_iff, or_and_right, exists_or, and_assoc, exists_and_left, exists_eq_left, Instr.mnemonic,
    eq_comm (b := name)]

/-- Settles O5: each row's mask is all ones from some bit up, so a row is selected by the bits above it. -/
theorem opcodeMapSelectsTheDecodedCommand : Obligations.OpcodeMapSelectsTheDecodedCommand := by
  unfold Obligations.OpcodeMapSelectsTheDecodedCommand
  intro w name value mask hrow
  have hkey : (w.extractLsb' 0 9).toNat = w.toNat % 512 := keyOf_toNat w
  rw [exists_decode_mnemonic_iff, hkey]
  simp only [opcodeMap, List.mem_cons, List.not_mem_nil, or_false, Prod.mk.injEq] at hrow
  rcases hrow with ⟨rfl, rfl, rfl⟩ | ⟨rfl, rfl, rfl⟩ | ⟨rfl, rfl, rfl⟩ | ⟨rfl, rfl, rfl⟩ | ⟨rfl, rfl, rfl⟩ | ⟨rfl, rfl, rfl⟩ |
    ⟨rfl, rfl, rfl⟩ | ⟨rfl, rfl, rfl⟩
  case inr.inl => rw [and_highMask_eq_iff (mask := 0xFF00) 8 0x10 rfl rfl]; simp
  case inr.inr.inr.inl => rw [and_highMask_eq_iff (mask := 0xFFE0) 5 0x180 rfl rfl]; simp
  case inr.inr.inr.inr.inr.inl => rw [and_highMask_eq_iff (mask := 0xFE00) 9 0x28 rfl rfl]; simp
  all_goals rw [and_highMask_eq_iff (mask := 0xFFFF) 0 _ rfl (Nat.mul_one _).symm]; simp

end Sys2Proof

namespace Sys2Proof.Machine

/-! ## Words that take a fault (R62) -/

/-- A command that takes a fault is `Faulting`, and does nothing else (R117). -/
theorem exec_takes_fault {i : Instr} {s t : State} (hf : s.fault = false) (h : exec i s = .next t) (ht : t.fault = true) :
    ∃ c, Faulting i s c ∧ t = s.raise c (encode i) := by
  have hkept (heq : t.fault = s.fault) : False := by simp [ht, hf] at heq
  rcases exec_cases h with ⟨rfl, -⟩ | ⟨-, c, hc, rfl⟩ | ⟨-, -, ch, -, rfl⟩ | ⟨-, -, -, rfl⟩ | ⟨-, -, -, code, -, rfl⟩ |
    ⟨-, -, -, rfl⟩ | ⟨v, -, rfl⟩
  · exact (hkept rfl).elim
  · exact ⟨c, hc, rfl⟩
  · exact (hkept (by rw [State.encChar_eq])).elim
  · exact (hkept rfl).elim
  · exact (hkept (by rw [State.pkAdd_eq])).elim
  · exact (hkept (by rw [State.pkClose_eq])).elim
  · exact (hkept rfl).elim

/-- A well-formed command faults by misuse only, and has the OP of an encoder or packer command (R115). -/
theorem misuse_of_faulting {i : Instr} {s : State} {c : FaultCause} (hwf : i.wf = true) (h : Faulting i s c) :
    c = .protocolMisuse ∧ 1 ≤ (opcode i).toNat ∧ (opcode i).toNat ≤ 4 := by
  rcases h with ⟨rfl, ⟨ch, rfl, -⟩ | ⟨rfl, -⟩ | ⟨code, rfl, -⟩ | ⟨rfl, -⟩⟩ | ⟨-, key, rfl, hkey⟩
  case inr => exact absurd (of_decide_eq_true hwf) (Nat.not_le.mpr hkey)
  all_goals exact ⟨rfl, by simp [opcode]⟩

/-- Of the words with OP below 8 and ARG = 0 every one is legal (R61). -/
theorem illegal_op_or_arg {w : Word} (h : legal w = false) : 8 ≤ (opOf w).toNat ∨ argOf w ≠ 0#12 := by
  by_contra hcon
  obtain ⟨hop, harg⟩ : (opOf w).toNat < 8 ∧ argOf w = 0#12 := by simpa using hcon
  rw [opOf_toNat] at hop
  have hnum : w.toNat % 4096 = 0 := by rw [← argOf_toNat, harg]; rfl
  have hlegal : legal w = true := legal_iff_toNat.mpr (by omega)
  simp [h] at hlegal

/-- Settles O7: an illegal word is not NOP's, and a legal word that takes a fault is the word of a command that misuses. -/
theorem faultCausingWordsAreNeverZero : Obligations.FaultCausingWordsAreNeverZero := by
  unfold Obligations.FaultCausingWordsAreNeverZero
  refine ⟨decode_encode (i := .nop) rfl, fun s t w rest hin hf h ht => ?_⟩
  rcases hd : decode w with e | i
  · have hillegal : legal w = false := legal_eq_false_iff.mpr ⟨e, hd⟩
    have hw := ne_zero_of_decode_error hd
    rw [step_illegal_open hin hf hillegal] at h
    cases h
    exact ⟨hw, hw, by simp, fun _ => illegal_op_or_arg hillegal⟩
  · rw [step_command hin hd] at h
    obtain ⟨c, hc, rfl⟩ := exec_takes_fault (s := { s with input := rest }) hf h ht
    have hw : w ≠ 0x0000#16 := encode_of_decode hd ▸ encode_ne_zero_of_faulting hc
    obtain ⟨rfl, hop⟩ := misuse_of_faulting (wf_of_decode hd) hc
    exact ⟨hw, encode_ne_zero_of_faulting hc, fun _ => opOf_of_decode hd ▸ hop, by simp⟩

/-! ## Sample words, and every step answers -/

/-- Settles O1: each word, written bit by bit, is the word of its command. -/
theorem sampleWordsDecodeAsTheEncodingsSay : Obligations.SampleWordsDecodeAsTheEncodingsSay := by
  unfold Obligations.SampleWordsDecodeAsTheEncodingsSay
  exact ⟨decode_encode (i := .nop) rfl, decode_encode (i := .encChar 0x48#8) rfl, decode_encode (i := .encClose) rfl,
    decode_encode (i := .pkAdd 30#5) rfl, decode_encode (i := .pkClose) rfl, decode_encode (i := .rdCount 0x100#9) rfl,
    decode_encode (i := .rdStatus) rfl, decode_encode (i := .rdFault) rfl⟩

/-- Settles O14: waiting, reset and an illegal word answer outright, and every command answers a next state. -/
theorem everyStepAnswersANextState : Obligations.EveryStepAnswersANextState := by
  unfold Obligations.EveryStepAnswersANextState
  intro s
  rcases hin : s.input with _ | ⟨w | _, rest⟩
  · exact ⟨_, step_wait hin⟩
  · rcases hd : decode w with e | i
    · exact ⟨_, step_illegal hin hd⟩
    · exact step_command hin hd ▸ exec_next i _
  · exact ⟨_, step_reset hin⟩

end Sys2Proof.Machine
end

section
/-! Each code space names its characters one to one (R70), and the settlement of O16. -/

namespace Sys2Proof.Machine

/-- The code of an uppercase letter is its ordinal less 64 (R67). -/
theorem letterCode_upper_toNat {ch : Ch} (h : isUppercase ch = true) : (letterCode ch .upper).toNat = ch.toNat - 64 := by
  revert ch; decide

/-- The uppercase letters are the characters from 65 to 90 (R78). -/
theorem isUppercase_iff {ch : Ch} : isUppercase ch = true ↔ 0x41 ≤ ch.toNat ∧ ch.toNat ≤ 0x5A := by
  simp [isUppercase]

/-- In Letters mode code n names the character 64 + n and no other (R84). -/
theorem existsUnique_letterCode_upper {c : Code} (hlo : 1 ≤ c.toNat) (hhi : c.toNat ≤ 26) :
    ∃! ch : Ch, isUppercase ch = true ∧ letterCode ch .upper = c := by
  have hnum : (BitVec.ofNat 8 (64 + c.toNat)).toNat = 64 + c.toNat := by rw [BitVec.toNat_ofNat]; omega
  have hupper : isUppercase (BitVec.ofNat 8 (64 + c.toNat)) = true := isUppercase_iff.mpr (by omega)
  refine ⟨BitVec.ofNat 8 (64 + c.toNat), ⟨hupper, BitVec.eq_of_toNat_eq ?_⟩, ?_⟩
  · rw [letterCode_upper_toNat hupper]; omega
  · rintro ch ⟨hch, rfl⟩
    have hcode := letterCode_upper_toNat hch
    have hrange := isUppercase_iff.mp hch
    exact BitVec.eq_of_toNat_eq (by omega)

/-- Every code from 1 to 27 has a character in the figures table: an entry of FIG_PUNCT up to 15, from 16 on a digit, ':'
or ';' (R43). -/
theorem exists_figRom_eq {p : Params} (hp : p.wf = true) {c : Code} (hlo : 1 ≤ c.toNat) (hhi : c.toNat ≤ 27) :
    ∃ ch, figRom p ch = c := by
  obtain ⟨-, hlen, -, -⟩ := Params.wf_iff.mp hp
  obtain ⟨n, hn⟩ : ∃ n, c.toNat = n + 1 := Nat.exists_eq_add_of_le' hlo
  have hnamed {ch : Ch} (h : p.figPunct[n]? = some ch ∨ (15 ≤ n ∧ n < 27 ∧ ch.toNat = n + 0x21)) : figRom p ch = c :=
    BitVec.eq_of_toNat_eq (((figRom_toNat_eq_succ_iff hp ch n).mpr h).trans hn.symm)
  rcases Nat.lt_or_ge n 15 with hpunct | hrow
  · exact ⟨_, hnamed (.inl (List.getElem?_eq_getElem (hlen ▸ hpunct)))⟩
  · have hnum : (BitVec.ofNat 8 (n + 0x21)).toNat = n + 0x21 := by rw [BitVec.toNat_ofNat]; omega
    exact ⟨_, hnamed (.inr ⟨hrow, by omega, hnum⟩)⟩

/-- In Figures mode a code names one character. -/
theorem existsUnique_figRom {p : Params} (hp : p.wf = true) {c : Code} (hlo : 1 ≤ c.toNat) (hhi : c.toNat ≤ 27) :
    ∃! ch : Ch, figRom p ch = c := by
  obtain ⟨ch, rfl⟩ := exists_figRom_eq hp hlo hhi
  have hne : figRom p ch ≠ 0#5 := fun hzero => by simp [hzero] at hlo
  exact ⟨ch, rfl, fun other h => (figRom_injective hp hne h.symm).symm⟩

/-- Settles O16: a letter code is the letter's ordinal less 64, and the figures table is full and injective. -/
theorem eachCodeSpaceNamesItsCharactersOneToOne : Obligations.EachCodeSpaceNamesItsCharactersOneToOne := by
  unfold Obligations.EachCodeSpaceNamesItsCharactersOneToOne
  refine ⟨fun _ => existsUnique_letterCode_upper, fun ch h => letterCode_range (classify_upper.mpr h), fun p hp => ?_⟩
  refine ⟨fun _ => existsUnique_figRom hp, fun ch hne => ⟨?_, figRom_le hp ch⟩⟩
  obtain ⟨n, hn⟩ := figRom_toNat_eq_succ_of_ne_zero hne
  omega

end Sys2Proof.Machine
end

section
/-! The packed byte format (R71): cutting a bit string into bytes loses no bit, so a packed buffer has its length (R73) and
holds its codes (R74), and the settlement of O36. -/

namespace Sys2Proof.Machine

/-! ## Bits of a word -/

theorem bitsMsb_length {n : Nat} (v : BitVec n) : (bitsMsb v).length = n := by simp [bitsMsb]

theorem bitsMsb_byteOfBits (b7 b6 b5 b4 b3 b2 b1 b0 : Bool) :
    bitsMsb (byteOfBits [b7, b6, b5, b4, b3, b2, b1, b0]) = [b7, b6, b5, b4, b3, b2, b1, b0] := by
  revert b7 b6 b5 b4 b3 b2 b1 b0; decide

theorem codeBits_length (codes : List Code) : (codeBits codes).length = 5 * codes.length := by
  simp [codeBits, List.length_flatMap, bitsMsb_length, Nat.mul_comm]

/-! ## Cutting whole bytes -/

/-- A string of whole bytes is cut into its bytes, and their bits are the string. -/
theorem cutBytes_wholeBytes (bits : List Bool) (h : bits.length % 8 = 0) :
    8 * (cutBytes bits).length = bits.length ∧ (cutBytes bits).flatMap (fun b => bitsMsb b) = bits := by
  fun_induction cutBytes bits with
  | case1 b7 b6 b5 b4 b3 b2 b1 b0 rest ih =>
    have hrest : rest.length % 8 = 0 := by simp only [List.length_cons] at h; omega
    obtain ⟨hlen, hbits⟩ := ih hrest
    simp only [List.length_cons, List.flatMap_cons, bitsMsb_byteOfBits, hbits]
    exact ⟨by omega, rfl⟩
  | case2 bits hshort =>
    match bits, h, hshort with
    | [], _, _ => exact ⟨rfl, rfl⟩
    | b7 :: b6 :: b5 :: b4 :: b3 :: b2 :: b1 :: b0 :: rest, _, hshort => exact (hshort _ _ _ _ _ _ _ _ _ rfl).elim

/-- Zero bits are cut into zero bytes. -/
theorem cutBytes_zero (bits : List Bool) (h : ∀ x ∈ bits, x = false) : ∀ b ∈ cutBytes bits, b = 0x00#8 := by
  fun_induction cutBytes bits with
  | case1 b7 b6 b5 b4 b3 b2 b1 b0 rest ih =>
    simp only [List.forall_mem_cons] at h ⊢
    obtain ⟨rfl, rfl, rfl, rfl, rfl, rfl, rfl, rfl, hrest⟩ := h
    exact ⟨rfl, ih hrest⟩
  | case2 bits hshort => simp

/-! ## The packed buffer -/

/-- The pad fills the last byte (R71). -/
theorem paddedBits_length (bits : List Bool) : (bits ++ padBits bits).length = 8 * ((bits.length + 7) / 8) := by
  simp only [padBits, List.length_append, List.length_replicate]
  omega

theorem packedBuffer_length (codes : List Code) : (packedBuffer codes).length = (5 * codes.length + 7) / 8 := by
  have hpad := paddedBits_length (codeBits codes)
  have := (cutBytes_wholeBytes (codeBits codes ++ padBits (codeBits codes)) (by omega)).1
  rw [codeBits_length] at hpad
  rw [packedBuffer]
  omega

theorem packedBuffer_bits (codes : List Code) :
    (packedBuffer codes).flatMap (fun b => bitsMsb b) = codeBits codes ++ padBits (codeBits codes) :=
  (cutBytes_wholeBytes _ (by rw [paddedBits_length]; omega)).2

theorem packedBuffer_zero {codes : List Code} (h : ∀ c ∈ codes, c = 0#5) : ∀ b ∈ packedBuffer codes, b = 0x00#8 := by
  refine cutBytes_zero _ fun x hx => ?_
  rcases List.mem_append.mp hx with hcode | hpad
  · obtain ⟨c, hc, hbit⟩ := List.mem_flatMap.mp hcode
    have hzero : ∀ x ∈ bitsMsb 0#5, x = false := by decide
    exact hzero x (h c hc ▸ hbit)
  · exact List.eq_of_mem_replicate hpad

/-- Settles O36: the codes' bits and the pad are whole bytes, and cutting them loses no bit. -/
theorem packedBufferHasItsLengthAndRoundTrips : Obligations.PackedBufferHasItsLengthAndRoundTrips := by
  unfold Obligations.PackedBufferHasItsLengthAndRoundTrips
  refine fun codes => ⟨packedBuffer_length codes, packedBuffer_zero, ?_⟩
  rw [packedBuffer_bits, ← codeBits_length, List.take_left]

end Sys2Proof.Machine
end

section
/-! The code stream as a receiver reads it (R69, R98): a code list read from a mode, the codes of one character read from
the block's MODE, and the settlement of O48. -/

namespace Sys2Proof.Machine

/-! ## Reading a code list from a mode -/

/-- The mode a TOGGLE leads to (R98 item 5). -/
def Mode.other : Mode → Mode
  | .letters => .figures
  | .figures => .letters

theorem Mode.eq_or_eq_other (m target : Mode) : m = target ∨ m = target.other := by cases m <;> cases target <;> decide

theorem Mode.ne_other (m : Mode) : m ≠ m.other := by cases m <;> decide

theorem Mode.other_other (m : Mode) : m.other.other = m := by cases m <;> rfl

/-- The mode after the codes, read from the mode `m`. -/
def modeFrom (m : Mode) (codes : List Code) : Mode :=
  codes.foldl (fun m c => if c = codeToggle then m.other else m) m

/-- A code that may stand right after the TOGGLE into a mode: the code of a character that needs the mode, or a SHIFT. -/
def Mode.Takes (m : Mode) (c : Code) : Prop :=
  match m with
  | .letters => 1 ≤ c.toNat ∧ c.toNat ≤ 30 ∧ c ≠ codeSpace
  | .figures => 1 ≤ c.toNat ∧ c.toNat ≤ 27

/-- What is asked of the code `c` read in the mode `m` before the codes `after` (R69, R98 item 5). -/
def CodeFits (m : Mode) (c : Code) (after : List Code) : Prop :=
  (c = codeCr ∨ c = codeShift → m = .letters) ∧ (c = codeToggle → ∃ d rest, after = d :: rest ∧ m.other.Takes d)

/-- Every code of the list fits, read from the mode `m`. -/
def WellModedFrom (m : Mode) : List Code → Prop
  | [] => True
  | c :: after => CodeFits m c after ∧ WellModedFrom (modeFrom m [c]) after

theorem modeFrom_cons (m : Mode) (c : Code) (codes : List Code) : modeFrom m (c :: codes) = modeFrom (modeFrom m [c]) codes :=
  rfl

theorem modeFrom_append (m : Mode) (a b : List Code) : modeFrom m (a ++ b) = modeFrom (modeFrom m a) b :=
  List.foldl_append

theorem modeFrom_letters (codes : List Code) : modeFrom .letters codes = modeAfter codes := by
  have hother (m : Mode) : (if m = .letters then .figures else .letters) = m.other := by cases m <;> rfl
  simp only [modeFrom, modeAfter, hother]

theorem Mode.other_takes {m : Mode} {c : Code} : m.other.Takes c ↔ if m = .letters then 1 ≤ c.toNat ∧ c.toNat ≤ 27
    else 1 ≤ c.toNat ∧ c.toNat ≤ 30 ∧ c ≠ codeSpace := by
  cases m <;> exact Iff.rfl

theorem wellModedFrom_cons {m : Mode} {c : Code} {after : List Code} :
    WellModedFrom m (c :: after) ↔ CodeFits m c after ∧ WellModedFrom (modeFrom m [c]) after := Iff.rfl

/-- More codes at the end take nothing from a code that fits. -/
theorem CodeFits.append {m : Mode} {c : Code} {after : List Code} (h : CodeFits m c after) (more : List Code) :
    CodeFits m c (after ++ more) := by
  refine ⟨h.1, fun hc => ?_⟩
  obtain ⟨d, rest, rfl, hd⟩ := h.2 hc
  exact ⟨d, rest ++ more, rfl, hd⟩

theorem WellModedFrom.append {m : Mode} {a b : List Code} (ha : WellModedFrom m a) (hb : WellModedFrom (modeFrom m a) b) :
    WellModedFrom m (a ++ b) := by
  induction a generalizing m with
  | nil => exact hb
  | cons c after ih => exact ⟨ha.1.append b, ih ha.2 hb⟩

/-- The same, said of every place in the list. -/
theorem wellModedFrom_iff {m : Mode} {codes : List Code} : WellModedFrom m codes ↔
    ∀ before c after, codes = before ++ c :: after → CodeFits (modeFrom m before) c after := by
  induction codes generalizing m with
  | nil => simp [WellModedFrom]
  | cons c codes ih =>
    rw [wellModedFrom_cons, ih]
    constructor
    · rintro ⟨hc, hcodes⟩ before d after heq
      rcases before with _ | ⟨b, before⟩
      · cases heq; exact hc
      · cases heq; exact hcodes before d after rfl
    · exact fun h => ⟨h [] c codes rfl, fun before d after heq => h (c :: before) d after (by rw [heq]; rfl)⟩

/-- The code stream is well-moded when it is read so from Letters and leads to MODE. -/
theorem State.codeStreamWellModed_iff {s : State} :
    s.CodeStreamWellModed ↔ s.mode = modeFrom .letters s.cs ∧ WellModedFrom .letters s.cs := by
  simp only [wellModedFrom_iff, CodeFits, modeFrom_letters, Mode.other_takes]
  constructor
  · rintro ⟨hmode, hletters, htoggle⟩
    exact ⟨hmode, fun before c after heq => ⟨hletters before c after heq, fun hc => htoggle before after (hc ▸ heq)⟩⟩
  · rintro ⟨hmode, hfits⟩
    exact ⟨hmode, fun before c after heq => (hfits before c after heq).1,
      fun before after heq => (hfits before codeToggle after heq).2 rfl⟩

/-! ## The codes of one character -/

theorem Mode.Takes.le {m : Mode} {c : Code} (h : m.Takes c) : c.toNat ≤ 30 := by
  cases m with
  | letters => exact h.2.1
  | figures => exact h.2.trans (by decide)

theorem Mode.Takes.ne_toggle {m : Mode} {c : Code} (h : m.Takes c) : c ≠ codeToggle := by
  rintro rfl
  exact absurd h.le (by decide)

/-- CR and SHIFT need Letters mode (R69). -/
theorem Mode.Takes.letters_of_cr_or_shift {m : Mode} {c : Code} (h : m.Takes c) (hc : c = codeCr ∨ c = codeShift) :
    m = .letters := by
  cases m with
  | letters => rfl
  | figures => rcases hc with rfl | rfl <;> exact absurd h.2 (by decide)

/-- Codes of one mode, read in that mode, fit and do not leave it. -/
theorem wellModedFrom_of_takes {m : Mode} {codes : List Code} (h : ∀ c ∈ codes, m.Takes c) :
    WellModedFrom m codes ∧ modeFrom m codes = m := by
  induction codes with
  | nil => exact ⟨trivial, rfl⟩
  | cons c codes ih =>
    obtain ⟨hc, hcodes⟩ := List.forall_mem_cons.mp h
    have hstay : modeFrom m [c] = m := if_neg hc.ne_toggle
    rw [modeFrom_cons, wellModedFrom_cons, hstay]
    exact ⟨⟨⟨hc.letters_of_cr_or_shift, fun ht => absurd ht hc.ne_toggle⟩, (ih hcodes).1⟩, (ih hcodes).2⟩

/-- Codes of one mode, after a TOGGLE exactly where the mode read from is the other one, fit and lead to their mode. -/
theorem wellModedFrom_toggleFrom {m target : Mode} {c : Code} {codes : List Code} (h : ∀ d ∈ c :: codes, target.Takes d) :
    WellModedFrom m (toggleFrom m target.other ++ c :: codes) ∧
    modeFrom m (toggleFrom m target.other ++ c :: codes) = target := by
  have hread := wellModedFrom_of_takes h
  rcases Mode.eq_or_eq_other m target with rfl | rfl
  · have hnone : toggleFrom m m.other = [] := if_neg m.ne_other
    rwa [hnone]
  · have hone : toggleFrom target.other target.other = [codeToggle] := if_pos rfl
    have hmode : modeFrom target.other [codeToggle] = target := target.other_other
    have hfits : CodeFits target.other codeToggle (c :: codes) :=
      ⟨fun hc => absurd hc (by decide), fun _ => ⟨c, codes, rfl, target.other_other.symm ▸ h c List.mem_cons_self⟩⟩
    rw [hone, List.singleton_append, modeFrom_cons, wellModedFrom_cons, hmode]
    exact ⟨⟨hfits, hread.1⟩, hread.2⟩

/-- A character of Letters mode puts out the TOGGLE to it, where one is due, and then codes of Letters mode (R89). -/
theorem charCodes_lettersMode {ch : Ch} (hspace : classify ch ≠ .space) (hsymbol : classify ch ≠ .symbol) (p : Params)
    (m : Mode) (shift : LetterCase) : ∃ c codes, charCodes p m shift ch = toggleFrom m .figures ++ c :: codes ∧
      (∀ d ∈ c :: codes, Mode.letters.Takes d) ∧ charMode p m ch = .letters := by
  unfold charCodes charMode
  cases hclass : classify ch with
  | space => exact absurd hclass hspace
  | cr => exact ⟨codeCr, [], rfl, by simp [Mode.Takes, codeCr, codeSpace], rfl⟩
  | period => exact ⟨codePeriod, [], rfl, by simp [Mode.Takes, codePeriod, codeSpace], rfl⟩
  | letter c =>
    have hshift : Mode.letters.Takes codeShift := by simp [Mode.Takes, codeShift, codeSpace]
    have hletter : Mode.letters.Takes (letterCode ch c) := by
      obtain ⟨hlo, hhi⟩ := letterCode_range hclass
      exact ⟨hlo, by omega, fun heq => by simp [heq, codeSpace] at hhi⟩
    by_cases h : c = shift
    · exact ⟨letterCode ch c, [], by simp [h], by simpa using hletter, rfl⟩
    · exact ⟨codeShift, [letterCode ch c], by simp [h], by simp [hshift, hletter], rfl⟩
  | symbol => exact absurd hclass hsymbol

/-- The code of an encodable symbol is a code of Figures mode (R43, R83). -/
theorem figRom_takes {p : Params} (hp : p.wf = true) {ch : Ch} (h : isEncodable p ch = true) :
    Mode.figures.Takes (figRom p ch) := by
  obtain ⟨n, hn⟩ := figRom_toNat_eq_succ_of_ne_zero (p := p) (ch := ch) (by simpa [isEncodable] using h)
  exact ⟨by omega, figRom_le hp ch⟩

/-- ENC_CHAR's codes, read from MODE, fit, and lead to the MODE it leaves (R98 item 5). -/
theorem charCodes_wellModedFrom {p : Params} (hp : p.wf = true) (m : Mode) (shift : LetterCase) (ch : Ch) :
    WellModedFrom m (charCodes p m shift ch) ∧ modeFrom m (charCodes p m shift ch) = charMode p m ch := by
  by_cases hspace : classify ch = .space
  · simp only [charCodes, charMode, hspace]
    exact ⟨⟨⟨fun h => absurd h (by decide), fun h => absurd h (by decide)⟩, trivial⟩, rfl⟩
  by_cases hsymbol : classify ch = .symbol
  · simp only [charCodes, charMode, hsymbol]
    split
    · exact ⟨trivial, rfl⟩
    · next h =>
      obtain ⟨-, hencodable⟩ : isSkipped ch = false ∧ isEncodable p ch = true := by simpa using h
      exact wellModedFrom_toggleFrom (target := .figures) (by simpa using figRom_takes hp hencodable)
  · obtain ⟨c, codes, hcodes, htakes, hmode⟩ := charCodes_lettersMode hspace hsymbol p m shift
    rw [hcodes, hmode]
    exact wellModedFrom_toggleFrom (target := .letters) htakes

/-! ## Every command and every step -/

/-- Codes that are read well from MODE may be appended. -/
theorem State.CodeStreamWellModed.append {s t : State} (h : s.CodeStreamWellModed) {codes : List Code}
    (hcs : t.cs = s.cs ++ codes) (hcodes : WellModedFrom s.mode codes) (hmode : t.mode = modeFrom s.mode codes) :
    t.CodeStreamWellModed := by
  obtain ⟨hs, hwell⟩ := State.codeStreamWellModed_iff.mp h
  rw [State.codeStreamWellModed_iff, hcs, modeFrom_append, ← hs]
  exact ⟨hmode, hwell.append (hs ▸ hcodes)⟩

/-- A state with the same MODE and the same CS. -/
theorem State.CodeStreamWellModed.congr {s t : State} (h : s.CodeStreamWellModed) (hmode : t.mode = s.mode)
    (hcs : t.cs = s.cs) : t.CodeStreamWellModed :=
  h.append (codes := []) (by simpa using hcs) trivial hmode

theorem State.CodeStreamWellModed.encChar {s : State} (h : s.CodeStreamWellModed) (hp : s.params.wf = true) (ch : Ch) :
    (s.encChar ch).CodeStreamWellModed := by
  obtain ⟨hcodes, hmode⟩ := charCodes_wellModedFrom hp s.mode s.shiftStatus ch
  rw [State.encChar_eq]
  exact h.append rfl hcodes hmode.symm

/-- NULL may stand in either mode (R97). -/
theorem State.CodeStreamWellModed.encClose {s : State} (h : s.CodeStreamWellModed) : s.encClose.CodeStreamWellModed :=
  h.append (codes := [codeNull]) rfl
    ⟨⟨fun hc => absurd hc (by decide), fun hc => absurd hc (by decide)⟩, trivial⟩ rfl

theorem exec_codeStreamWellModed {i : Instr} {s t : State} (hp : s.params.wf = true) (hs : s.CodeStreamWellModed)
    (h : exec i s = .next t) : t.CodeStreamWellModed := by
  rcases exec_cases h with ⟨rfl, -⟩ | ⟨-, c, -, rfl⟩ | ⟨-, -, ch, -, rfl⟩ | ⟨-, -, -, rfl⟩ | ⟨-, -, -, code, -, rfl⟩ |
    ⟨-, -, -, rfl⟩ | ⟨v, -, rfl⟩
  · exact hs
  · exact hs.congr rfl rfl
  · exact hs.encChar hp ch
  · exact hs.encClose
  · exact hs.congr (by rw [State.pkAdd_eq]) (by rw [State.pkAdd_eq])
  · exact hs.congr (by rw [State.pkClose_eq]) (by rw [State.pkClose_eq])
  · exact hs.congr rfl rfl

/-- Settles O48: reset empties the stream, an illegal word leaves it, and a command that appends to it appends codes that
are read well from MODE. -/
theorem everyStepKeepsTheCodeStreamWellModed : Obligations.EveryStepKeepsTheCodeStreamWellModed := by
  unfold Obligations.EveryStepKeepsTheCodeStreamWellModed
  intro s t hp hs h
  rcases step_cases h with ⟨-, rfl⟩ | ⟨rest, -, rfl⟩ | ⟨w, rest, i, -, -, h⟩ | ⟨w, rest, e, -, -, rfl⟩
  · exact hs
  · exact reset_codeStreamWellModed.congr rfl rfl
  · exact exec_codeStreamWellModed (s := { s with input := rest }) hp (hs.congr rfl rfl) h
  · rcases State.illegal_cases { s with input := rest } w with ⟨-, heq⟩ | ⟨-, heq⟩ <;> rw [heq] <;> exact hs.congr rfl rfl

end Sys2Proof.Machine
end

section
/-! ENC_CHAR on a character of each category (R88 to R95), ENC_CLOSE (R97), and the settlement of O17 to O26. -/

namespace Sys2Proof.Machine

/-- The counters once a character has been counted. -/
def State.counted (s : State) (ch : Ch) : Counters := countAll s.params.cntW (charKeys s.shiftStatus ch) s.count

/-- A character adds 1, modulo 2^CNT_W, to the counters of its keys (R25). -/
theorem State.counted_get (s : State) (ch : Ch) (k : Nat) : (s.counted ch).get k =
    if k ∈ charKeys s.shiftStatus ch then (s.count.get k + 1) % 2 ^ s.params.cntW else s.count.get k :=
  countAll_get k (charKeys_nodup ..)

/-- ENC_CHAR while the encoder is open: the mode, codes, diagnostics and counts of the character (R86). -/
theorem exec_encChar_eq {s : State} (hopen : s.EncoderOpen) (ch : Ch) : exec (.encChar ch) s = .next { s with
    mode := charMode s.params s.mode ch
    cs := s.cs ++ charCodes s.params s.mode s.shiftStatus ch
    diag := s.diag ++ charDiags s.params ch
    count := s.counted ch } := by
  obtain ⟨hfault, hclosed⟩ := hopen
  rw [exec_encChar_open ch hfault hclosed, State.encChar_eq]; rfl

/-! ## Space, line feed and period -/

/-- Settles O17: a space has one code in either mode and no counter. -/
theorem spaceEmitsSpaceAndNothingElse : Obligations.SpaceEmitsSpaceAndNothingElse := by
  unfold Obligations.SpaceEmitsSpaceAndNothingElse
  intro s hopen
  have hclass : classify 0x20#8 = .space := rfl
  rw [exec_encChar_eq hopen]
  simp [charMode, charCodes, charDiags, State.counted, charKeys, countAll, hclass, codeSpace]

/-- Settles O18: a line feed is a character of Letters mode with no counter. -/
theorem lineFeedReturnsToLettersAndEmitsCr : Obligations.LineFeedReturnsToLettersAndEmitsCr := by
  unfold Obligations.LineFeedReturnsToLettersAndEmitsCr
  intro s hopen
  have hclass : classify 0x0A#8 = .cr := rfl
  rw [exec_encChar_eq hopen]
  simp [charMode, charCodes, charDiags, State.counted, charKeys, countAll, hclass, toggleFrom, codeCr, codeToggle]

/-- Settles O19: a period is a character of Letters mode, counted under itself. -/
theorem periodIsCountedAndEmitsPeriod : Obligations.PeriodIsCountedAndEmitsPeriod := by
  unfold Obligations.PeriodIsCountedAndEmitsPeriod
  intro s hopen
  have hclass : classify 0x2E#8 = .period := rfl
  refine ⟨s.counted 0x2E#8, ?_, fun k => ?_⟩
  · rw [exec_encChar_eq hopen]
    simp [charMode, charCodes, charDiags, hclass, toggleFrom, codePeriod, codeToggle]
  · simp [State.counted_get, charKeys, hclass]

/-! ## Letters -/

/-- The code of a letter is the ordinal of its uppercase form less 64 (R67). -/
theorem letterCode_eq_ofNat {ch : Ch} {c : LetterCase} (h : classify ch = .letter c) :
    letterCode ch c = BitVec.ofNat 5 ((upperOf ch c).toNat - 64) := by
  cases c <;> revert ch <;> decide

/-- The letters by their ordinals, with their case and their uppercase form (R78, R80, R81). -/
theorem classify_letter_of_range {ch upper : Ch} {c : LetterCase}
    (h : (0x41 ≤ ch.toNat ∧ ch.toNat ≤ 0x5A ∧ c = .upper ∧ upper = ch) ∨
      (0x61 ≤ ch.toNat ∧ ch.toNat ≤ 0x7A ∧ c = .lower ∧ upper.toNat = ch.toNat - 0x20)) :
    classify ch = .letter c ∧ upperOf ch c = upper := by
  rcases h with ⟨hlo, hhi, rfl, rfl⟩ | ⟨hlo, hhi, rfl, hupper⟩
  · exact ⟨classify_upper.mpr (isUppercase_iff.mpr ⟨hlo, hhi⟩), rfl⟩
  · refine ⟨classify_lower.mpr (by simp [isLowercase, hlo, hhi]), ?_⟩
    rw [upperOf]; bv_omega

/-- Settles O20: a letter is a character of Letters mode, counted under its uppercase form, and a SHIFT, where one is due,
under KEY_SHIFT. -/
theorem letterIsCountedShiftedAndEmitted : Obligations.LetterIsCountedShiftedAndEmitted := by
  unfold Obligations.LetterIsCountedShiftedAndEmitted
  intro s ch upper c hopen hletter
  obtain ⟨hclass, rfl⟩ := classify_letter_of_range hletter
  refine ⟨s.counted ch, ?_, fun k => ?_⟩
  · rw [exec_encChar_eq hopen]
    simp [charMode, charCodes, charDiags, hclass, toggleFrom, letterCode_eq_ofNat hclass, codeShift, codeToggle]
  · by_cases hcase : c = s.shiftStatus <;> simp [State.counted_get, charKeys, hclass, hcase, Config.keyShift]

/-! ## Symbols -/

/-- Settles O21: the two skipped characters are symbols without a code, a diagnostic or a counter. -/
theorem skippedCharactersChangeNothing : Obligations.SkippedCharactersChangeNothing := by
  unfold Obligations.SkippedCharactersChangeNothing
  intro s ch hopen hskipped
  have hclass : classify ch = .symbol := by rcases hskipped with rfl | rfl <;> rfl
  have hskip : isSkipped ch = true := by simpa [isSkipped] using hskipped
  rw [exec_encChar_eq hopen]
  simp [charMode, charCodes, charDiags, State.counted, charKeys, countAll, hclass, hskip]

theorem isSkipped_eq_false {ch : Ch} (hcr : ch ≠ 0x0D#8) (hunderline : ch ≠ 0x5F#8) : isSkipped ch = false := by
  simp [isSkipped, hcr, hunderline]

/-- A symbol that is not skipped is counted under itself (R94). -/
theorem State.counted_symbol_get {ch : Ch} (hclass : classify ch = .symbol) (hskip : isSkipped ch = false) (s : State)
    (k : Nat) : (s.counted ch).get k =
      if k = ch.toNat then (s.count.get k + 1) % 2 ^ s.params.cntW else s.count.get k := by
  simp [State.counted_get, charKeys, hclass, hskip]

/-- Settles O22: a symbol that is not skipped is counted, and one without a figures code has a diagnostic for its code. -/
theorem symbolsAreCountedAndUnencodableOnesReported : Obligations.SymbolsAreCountedAndUnencodableOnesReported := by
  unfold Obligations.SymbolsAreCountedAndUnencodableOnesReported
  intro s ch hopen hclass hcr hunderline
  have hskip := isSkipped_eq_false hcr hunderline
  refine ⟨_, exec_encChar_eq hopen ch, s.counted_symbol_get hclass hskip, fun hrom => ?_⟩
  have hcode : isEncodable s.params ch = false := by simp [isEncodable, hrom]
  simp [charMode, charCodes, charDiags, hclass, hskip, hcode]

/-- Settles O23: a symbol with a figures code is a character of Figures mode, counted under itself. -/
theorem encodableSymbolEntersFiguresAndEmitsItsCode : Obligations.EncodableSymbolEntersFiguresAndEmitsItsCode := by
  unfold Obligations.EncodableSymbolEntersFiguresAndEmitsItsCode
  intro s ch hopen hclass hcr hunderline hrom
  have hskip := isSkipped_eq_false hcr hunderline
  have hcode : isEncodable s.params ch = true := by simpa [isEncodable] using hrom
  refine ⟨s.counted ch, ?_, s.counted_symbol_get hclass hskip⟩
  rw [exec_encChar_eq hopen]
  simp [charMode, charCodes, charDiags, hclass, hskip, hcode, toggleFrom, codeToggle]

/-! ## Every character -/

/-- The letters-mode characters are neither a space nor a symbol (R79, R89). -/
theorem classify_lettersMode {ch : Ch} (h : isCr ch = true ∨ isPeriod ch = true ∨ isLetter ch = true) :
    classify ch ≠ .space ∧ classify ch ≠ .symbol := by
  revert ch; decide

/-- Settles O24: after the TOGGLE, where one is due, a letters-mode character puts out codes of Letters mode alone. -/
theorem returnToLettersPrecedesEveryOtherCode : Obligations.ReturnToLettersPrecedesEveryOtherCode := by
  unfold Obligations.ReturnToLettersPrecedesEveryOtherCode
  intro s ch hopen hletters
  obtain ⟨hspace, hsymbol⟩ := classify_lettersMode hletters
  obtain ⟨c, codes, hcodes, htakes, hmode⟩ := charCodes_lettersMode hspace hsymbol s.params s.mode s.shiftStatus
  refine ⟨_, c :: codes, exec_encChar_eq hopen ch, hmode, ?_, by simp, fun htoggle => (htakes _ htoggle).ne_toggle rfl⟩
  rw [hcodes, ← List.append_assoc]; rfl

/-- A character that has a diagnostic has no code (R94, R96). -/
theorem charCodes_eq_nil_or_charDiags_eq_nil (p : Params) (m : Mode) (shift : LetterCase) (ch : Ch) :
    charCodes p m shift ch = [] ∨ charDiags p ch = [] := by
  cases hclass : classify ch with
  | symbol =>
    by_cases hcode : isEncodable p ch = true
    · exact .inr (by simp [charDiags, hclass, hcode])
    · exact .inl (by simp [charCodes, hclass, hcode])
  | _ => exact .inr (by simp [charDiags, hclass])

/-- Three codes are a TOGGLE, a SHIFT and a letter (R96). -/
theorem charCodes_length_eq_three_iff (p : Params) (m : Mode) (ch : Ch) :
    (charCodes p m .lower ch).length = 3 ↔ isUppercase ch = true ∧ m = .figures := by
  have hfigures := toggleFrom_length_le m .figures
  have hletters := toggleFrom_length_le m .letters
  have hlength : (toggleFrom m .figures).length = 1 ↔ m = .figures := by cases m <;> decide
  rw [← classify_upper]
  unfold charCodes
  cases hclass : classify ch with
  | space => simp
  | cr | period => simp; omega
  | letter c =>
    cases c with
    | lower => simp; omega
    | upper => simp; omega
  | symbol => dsimp only; split <;> simp; omega

/-- Settles O25: ENC_CHAR is its four functions of the character, and each of the bounds is one of the character's codes
and diagnostics. -/
theorem encCharWritesOnlyItsOwnStateWithinItsBounds : Obligations.EncCharWritesOnlyItsOwnStateWithinItsBounds := by
  unfold Obligations.EncCharWritesOnlyItsOwnStateWithinItsBounds
  intro s ch hopen _ hlower
  exact ⟨_, _, _, _, exec_encChar_eq hopen ch, charCodes_length_le .., charDiags_length_le ..,
    charCodes_eq_nil_or_charDiags_eq_nil .., codeNull_notMem_charCodes _ _ _ _, hlower ▸ charCodes_length_eq_three_iff ..⟩

/-! ## ENC_CLOSE -/

/-- Settles O26: an open encoder takes the close, and a closed one misuses. -/
theorem encCloseAppendsOneNullAndCloses : Obligations.EncCloseAppendsOneNullAndCloses := by
  unfold Obligations.EncCloseAppendsOneNullAndCloses
  exact fun s hfault => ⟨fun hopen => exec_encClose_open hfault hopen,
    fun hclosed => exec_faulting hfault (.inl ⟨rfl, .inr (.inl ⟨rfl, hclosed⟩)⟩)⟩

end Sys2Proof.Machine
end

section
/-! The packer's window (41_packer.md R99, R100) as a number and as bits, PK_ADD at each offset (R101), PK_CLOSE (R102,
R103), and the settlement of O29, O30, O31, O32 and O33. -/

namespace Sys2Proof.Machine

/-! ## The partial byte -/

/-- R27 as a bit: below the filled bits PK_ACC is 0. -/
theorem getLsbD_eq_false_of_padZero {acc : BitVec 8} {off : BitVec 3} (hpad : acc &&& (0xFF#8 >>> off.toNat) = 0#8)
    {i : Nat} (hi : i < 8 - off.toNat) : acc.getLsbD i = false := by
  have hmask : (0xFF#8 >>> off.toNat).getLsbD i = true := by
    rw [BitVec.getLsbD_ushiftRight]
    exact (BitVec.getLsbD_allOnes (v := 8)).trans (decide_eq_true (by omega))
  simpa [hmask] using congrArg (BitVec.getLsbD · i) hpad

/-- R27 as a number: PK_ACC is its filled bits and then zeros. -/
theorem toNat_eq_of_padZero {acc : BitVec 8} {off : BitVec 3} (hpad : acc &&& (0xFF#8 >>> off.toNat) = 0#8) :
    acc.toNat = acc.toNat / 2 ^ (8 - off.toNat) * 2 ^ (8 - off.toNat) := by
  have hmask : (0xFF#8 >>> off.toNat).toNat = 2 ^ (8 - off.toNat) - 1 := by clear hpad; revert off; decide
  have hmod := congrArg BitVec.toNat hpad
  rw [BitVec.toNat_and, hmask, Nat.and_two_pow_sub_one_eq_mod] at hmod
  exact (Nat.div_mul_cancel (Nat.dvd_of_mod_eq_zero hmod)).symm

/-! ## The window -/

/-- The filled bits and CODE do not overlap (R100). -/
theorem pkWindow_disjoint {acc : BitVec 8} {off : BitVec 3} (hpad : acc &&& (0xFF#8 >>> off.toNat) = 0#8) (code : Code) :
    (acc.setWidth 16 <<< 8) &&& (code.setWidth 16 <<< (11 - off.toNat)) = 0#16 := by
  refine BitVec.eq_of_getLsbD_eq fun i hi => ?_
  by_cases hlow : i < 16 - off.toNat
  · by_cases hbyte : i < 8
    · simp [hbyte]
    · simp [getLsbD_eq_false_of_padZero hpad (i := i - 8) (by omega)]
  · have hcode : code.getLsbD (i - (11 - off.toNat)) = false := BitVec.getLsbD_of_ge _ _ (by omega)
    simp [hcode]

/-- CODE moved into place is no longer than the window (R100). -/
theorem code_mul_le (off : BitVec 3) (code : Code) : code.toNat * 2 ^ (11 - off.toNat) ≤ 0xF800 :=
  calc code.toNat * 2 ^ (11 - off.toNat) ≤ 31 * 2 ^ 11 :=
        Nat.mul_le_mul (Nat.le_of_lt_succ code.isLt) (Nat.pow_le_pow_right (by decide) (Nat.sub_le ..))
    _ = 0xF800 := by decide

/-- The window is the filled bits, then CODE, then zeros (R100). -/
theorem pkWindow_toNat {acc : BitVec 8} {off : BitVec 3} (hpad : acc &&& (0xFF#8 >>> off.toNat) = 0#8) (code : Code) :
    (pkWindow acc off code).toNat = (acc.toNat / 2 ^ (8 - off.toNat) * 2 ^ 5 + code.toNat) * 2 ^ (11 - off.toNat) := by
  have hacc : (acc.setWidth 16 <<< 8).toNat = acc.toNat * 2 ^ 8 := by simp [Nat.shiftLeft_eq]; omega
  have hcode : (code.setWidth 16 <<< (11 - off.toNat)).toNat = code.toNat * 2 ^ (11 - off.toNat) := by
    have := code_mul_le off code
    simp [Nat.shiftLeft_eq]; omega
  have hpow : 2 ^ (8 - off.toNat) * 2 ^ 8 = 2 ^ 5 * 2 ^ (11 - off.toNat) := by
    have := off.isLt
    rw [← Nat.pow_add, ← Nat.pow_add]; congr 1; omega
  have hdisjoint := pkWindow_disjoint hpad code
  calc (pkWindow acc off code).toNat
      = acc.toNat * 2 ^ 8 + code.toNat * 2 ^ (11 - off.toNat) := by
        rw [pkWindow, ← BitVec.add_eq_or_of_and_eq_zero _ _ hdisjoint, BitVec.toNat_add_of_and_eq_zero hdisjoint, hacc,
          hcode]
    _ = _ := by
        conv => lhs; rw [toNat_eq_of_padZero hpad]
        rw [Nat.mul_assoc, hpow, Nat.add_mul, Nat.mul_assoc]

/-! ## PK_ADD -/

/-- Settles O30: an open packer takes the code, and the new offset is computed without a carry out of three bits. -/
theorem pkAddShiftsTheCodeIntoTheWindow : Obligations.PkAddShiftsTheCodeIntoTheWindow := by
  unfold Obligations.PkAddShiftsTheCodeIntoTheWindow
  rintro s code w ⟨hfault, hclosed, hopen⟩ rfl
  rw [exec_pkAdd_open code hfault hclosed hopen]
  have hsub : s.pkOff.toNat + 5 ≥ 8 → s.pkOff - 3#3 = BitVec.ofNat 3 (s.pkOff.toNat - 3) := by
    generalize s.pkOff = off; revert off; decide
  have hadd : s.pkOff + 5#3 = BitVec.ofNat 3 (s.pkOff.toNat + 5) := by
    rw [BitVec.ofNat_add, BitVec.ofNat_toNat, BitVec.setWidth_eq]
  unfold State.pkAdd
  dsimp only
  split
  · next hfull => rw [hsub hfull]; rfl
  · rw [hadd]; rfl

/-- PK_ADD that fills no byte: the window's first byte is the carry. -/
theorem State.PackerOpen.exec_pkAdd_stays {s : State} (hopen : s.PackerOpen)
    (hpad : s.pkAcc &&& (0xFF#8 >>> s.pkOff.toNat) = 0#8) {off : BitVec 3} (hoff : s.pkOff = off) (hfit : off.toNat + 5 < 8)
    {code : Code} {carry : BitVec 8}
    (hw : (s.pkAcc.toNat / 2 ^ (8 - off.toNat) * 2 ^ 5 + code.toNat) * 2 ^ (11 - off.toNat) = (carry ++ 0x00#8).toNat) :
    exec (.pkAdd code) s = .next { s with pkAcc := carry, pkOff := off + 5#3 } := by
  obtain ⟨hfault, hclosed, hpk⟩ := hopen
  subst hoff
  have hwindow := BitVec.eq_of_toNat_eq ((pkWindow_toNat hpad code).trans hw)
  rw [exec_pkAdd_open code hfault hclosed hpk, State.pkAdd, hwindow, if_neg (by omega), BitVec.extractLsb'_append_eq_left]

/-- PK_ADD that fills a byte: the window's first byte goes out and its second is the carry. -/
theorem State.PackerOpen.exec_pkAdd_carries {s : State} (hopen : s.PackerOpen)
    (hpad : s.pkAcc &&& (0xFF#8 >>> s.pkOff.toNat) = 0#8) {off : BitVec 3} (hoff : s.pkOff = off)
    (hfull : off.toNat + 5 ≥ 8) {code : Code} {b carry : BitVec 8}
    (hw : (s.pkAcc.toNat / 2 ^ (8 - off.toNat) * 2 ^ 5 + code.toNat) * 2 ^ (11 - off.toNat) = (b ++ carry).toNat) :
    exec (.pkAdd code) s = .next { s with pb := s.pb ++ [.byte b], pkAcc := carry, pkOff := off - 3#3 } := by
  obtain ⟨hfault, hclosed, hpk⟩ := hopen
  subst hoff
  have hwindow := BitVec.eq_of_toNat_eq ((pkWindow_toNat hpad code).trans hw)
  rw [exec_pkAdd_open code hfault hclosed hpk, State.pkAdd, hwindow, if_pos hfull, BitVec.extractLsb'_append_eq_left,
    BitVec.extractLsb'_append_eq_right]
  rfl

/-- Settles O29: at each offset the window is cut after its first byte. -/
theorem pkAddAtEachOffset : Obligations.PkAddAtEachOffset := by
  unfold Obligations.PkAddAtEachOffset
  intro s code hopen hpad
  refine ⟨fun hoff => hopen.exec_pkAdd_stays hpad hoff (by decide) ?_,
    fun hoff => hopen.exec_pkAdd_stays hpad hoff (by decide) ?_,
    fun hoff => hopen.exec_pkAdd_stays hpad hoff (by decide) ?_,
    fun hoff => hopen.exec_pkAdd_carries hpad hoff (by decide) ?_,
    fun hoff => hopen.exec_pkAdd_carries hpad hoff (by decide) ?_,
    fun hoff => hopen.exec_pkAdd_carries hpad hoff (by decide) ?_,
    fun hoff => hopen.exec_pkAdd_carries hpad hoff (by decide) ?_,
    fun hoff => hopen.exec_pkAdd_carries hpad hoff (by decide) ?_⟩
  all_goals
    simp only [toNat_append_add, BitVec.extractLsb'_toNat, Nat.shiftRight_eq_div_pow, BitVec.reduceToNat]
    omega

/-- Settles O31: the window is the filled bits, CODE and zeros, and PK_ADD cuts it after its first byte. -/
theorem packerWindowIsExact : Obligations.PackerWindowIsExact := by
  unfold Obligations.PackerWindowIsExact
  rintro s code ⟨hfault, hclosed, hopen⟩ hpad
  have hplace : (pkWindow s.pkAcc s.pkOff code).toNat / 2 ^ (11 - s.pkOff.toNat) =
      s.pkAcc.toNat / 2 ^ (8 - s.pkOff.toNat) * 2 ^ 5 + code.toNat := by
    rw [pkWindow_toNat hpad, Nat.mul_div_cancel _ (Nat.two_pow_pos _)]
  refine ⟨pkWindow_disjoint hpad code, code_mul_le s.pkOff code, extractLsb'_eq_of_toNat ?code, ?filled,
    s.pkAdd code, exec_pkAdd_open code hfault hclosed hopen, ?offset, State.pkAdd_padZero code hpad⟩
  case code => rw [hplace]; omega
  case filled =>
    have hpow : 2 ^ (16 - s.pkOff.toNat) = 2 ^ (11 - s.pkOff.toNat) * 2 ^ 5 := by
      rw [← Nat.pow_add]; congr 1; omega
    rw [hpow, ← Nat.div_div_eq_div_mul, hplace]; omega
  case offset => rw [State.pkAdd_eq]; exact BitVec.toNat_add ..

/-! ## PK_CLOSE -/

/-- Settles O32: PK_CLOSE takes effect after ENC_CLOSE, and misuses before it. -/
theorem pkCloseFlushesAndEndsTheBuffer : Obligations.PkCloseFlushesAndEndsTheBuffer := by
  unfold Obligations.PkCloseFlushesAndEndsTheBuffer
  refine fun s hfault => ⟨fun hclosed => ?_, fun hopen => ?_⟩
  · rw [exec_pkClose_open hfault hclosed, State.pkClose_eq]
  · exact exec_faulting hfault (.inl ⟨rfl, .inr (.inr (.inr ⟨rfl, hopen⟩))⟩)

/-- Settles O33: PK_CLOSE has left the packer empty, so there is no partial byte to put out. -/
theorem repeatedPkCloseEmitsOnlyEnd : Obligations.RepeatedPkCloseEmitsOnlyEnd := by
  unfold Obligations.RepeatedPkCloseEmitsOnlyEnd
  intro s hinv hfault hpk
  obtain ⟨hclosed, hacc, hoff⟩ := hinv.afterPkClose hpk
  rw [exec_pkClose_open hfault hclosed, State.pkClose_eq]
  simp [hoff, ← hacc, ← hpk]

end Sys2Proof.Machine
end

section
/-! PK_ADD of any codes, and PACK, as bits (41_packer.md R104, R105): the bits of the bytes put out and the filled bits of
PK_ACC are the bits of the codes, and the settlement of O34 and O35. -/

namespace Sys2Proof.Machine

/-! ## Presented commands -/

theorem run_succ {M : Host.Core} {s t : M.State} (h : M.step s = .next t) (k : Nat) : M.run (k + 1) s = M.run k t := by
  rw [Host.Core.run, h]

/-- A step with a well-formed command presented runs the command, with the rest still presented. -/
theorem run_present_cons {i : Instr} {s t : State} {rest : List Instr} (hwf : i.wf = true)
    (h : exec i (s.present rest) = .next t) (k : Nat) :
    Host.Core.run Sys2Proof.core (k + 1) (s.present (i :: rest)) = Host.Core.run Sys2Proof.core k t :=
  have hstep : step (s.present (i :: rest)) = exec i (s.present rest) := step_command rfl (decode_encode hwf)
  run_succ (M := Sys2Proof.core) (s := s.present (i :: rest)) (t := t) (hstep.trans h) k

/-! ## Bits of a word -/

theorem bitsMsb_append {m n : Nat} (x : BitVec m) (y : BitVec n) : bitsMsb (x ++ y) = bitsMsb x ++ bitsMsb y := by
  refine List.ext_getElem (by simp [bitsMsb_length]) fun i hi _ => ?_
  by_cases hleft : i < m <;> simp [bitsMsb, List.getElem_append, BitVec.getMsbD_append, hleft]

theorem bitsMsb_take {w n : Nat} (v : BitVec w) (h : n ≤ w) : (bitsMsb v).take n = bitsMsb (v.extractLsb' (w - n) n) := by
  refine List.ext_getElem (by simp [bitsMsb_length, h]) fun i hi _ => ?_
  rw [List.length_take] at hi
  have hplace : w - n + (n - 1 - i) = w - 1 - i := by omega
  simp [bitsMsb, BitVec.getMsbD, hplace, show i < w by omega, show i < n by omega, show n - 1 - i < n by omega]

/-- A byte is the byte of its bits. -/
theorem byteOfBits_bitsMsb (b : Byte) : byteOfBits (bitsMsb b) = b := by revert b; decide

/-- Cutting the bits of bytes gives the bytes. -/
theorem cutBytes_flatMap_bitsMsb (bytes : List Byte) : cutBytes (bytes.flatMap fun b => bitsMsb b) = bytes := by
  induction bytes with
  | nil => rfl
  | cons b bytes ih =>
    rw [List.flatMap_cons]
    exact congrArg₂ List.cons (byteOfBits_bitsMsb b) ih

/-! ## The bits the packer holds -/

/-- `PK_ACC[7 : 8 - PK_OFF]`, the filled bits of the partial byte (R105). -/
def State.heldBits (s : State) : List Bool := (bitsMsb s.pkAcc).take s.pkOff.toNat

/-- The window starts with the filled bits and CODE (R100). -/
theorem bitsMsb_pkWindow_take {acc : BitVec 8} {off : BitVec 3} (hpad : acc &&& (0xFF#8 >>> off.toNat) = 0#8)
    (code : Code) : (bitsMsb (pkWindow acc off code)).take (off.toNat + 5) =
      (bitsMsb acc).take off.toNat ++ bitsMsb code := by
  have hoff := off.isLt
  have hcode := code.isLt
  have hstart : 16 - (off.toNat + 5) = 11 - off.toNat := by omega
  have hfilled : acc.toNat / 2 ^ (8 - off.toNat) < 2 ^ off.toNat := by
    rw [Nat.div_lt_iff_lt_mul (Nat.two_pow_pos _), ← Nat.pow_add, Nat.add_sub_cancel' (by omega)]
    exact acc.isLt
  rw [bitsMsb_take _ (by omega), bitsMsb_take _ (by omega), ← bitsMsb_append, hstart]
  congr 1
  refine extractLsb'_eq_of_toNat ?_
  rw [pkWindow_toNat hpad, Nat.mul_div_cancel _ (Nat.two_pow_pos _), toNat_append_add, BitVec.extractLsb'_toNat,
    Nat.shiftRight_eq_div_pow, Nat.mod_eq_of_lt hfilled, Nat.pow_add]
  exact Nat.mod_eq_of_lt (by omega)

/-- PK_ADD of a code: the byte put out, where there is one, and the new partial byte are the window (R105). -/
theorem State.pkAdd_bits {s : State} (hpad : s.pkAcc &&& (0xFF#8 >>> s.pkOff.toNat) = 0#8) (code : Code) :
    ∃ bytes : List Byte, (s.pkAdd code).pb = s.pb ++ bytes.map .byte ∧
      (bytes.flatMap fun b => bitsMsb b) ++ (s.pkAdd code).heldBits = s.heldBits ++ bitsMsb code := by
  have htop := bitsMsb_pkWindow_take hpad code
  have hsplit : pkWindow s.pkAcc s.pkOff code =
      (pkWindow s.pkAcc s.pkOff code).extractLsb' 8 8 ++ (pkWindow s.pkAcc s.pkOff code).extractLsb' 0 8 := by
    rw [BitVec.extractLsb'_append_extractLsb'_eq_extractLsb' (by decide), BitVec.extractLsb'_eq_self]
  rw [hsplit, bitsMsb_append, List.take_append, bitsMsb_length] at htop
  unfold State.pkAdd
  dsimp only
  split
  · next hfull =>
    have hoff : (s.pkOff - 3#3).toNat = s.pkOff.toNat + 5 - 8 := by bv_omega
    refine ⟨[(pkWindow s.pkAcc s.pkOff code).extractLsb' 8 8], rfl, ?_⟩
    rw [List.take_of_length_le (by rw [bitsMsb_length]; exact hfull)] at htop
    simpa [State.heldBits, hoff] using htop
  · next hfit =>
    have hoff : (s.pkOff + 5#3).toNat = s.pkOff.toNat + 5 := by bv_omega
    refine ⟨[], (List.append_nil _).symm, ?_⟩
    rw [Nat.sub_eq_zero_of_le (by omega), List.take_zero, List.append_nil] at htop
    simpa [State.heldBits, hoff] using htop

/-! ## PK_ADD of any codes -/

/-- PK_ADD of each code, in order. -/
def State.pkAdds (s : State) (codes : List Code) : State := codes.foldl State.pkAdd s

@[simp] theorem State.pkAdds_nil (s : State) : s.pkAdds [] = s := rfl

@[simp] theorem State.pkAdds_cons (s : State) (code : Code) (codes : List Code) :
    s.pkAdds (code :: codes) = (s.pkAdd code).pkAdds codes := rfl

/-- Only the packer's registers and PB change (R99). -/
theorem State.pkAdds_eq (s : State) (codes : List Code) : s.pkAdds codes = { s with
    pkAcc := (s.pkAdds codes).pkAcc, pkOff := (s.pkAdds codes).pkOff, pb := (s.pkAdds codes).pb } := by
  induction codes generalizing s with
  | nil => rfl
  | cons code codes ih => rw [State.pkAdds_cons, ih, State.pkAdd_eq]

theorem State.PackerOpen.pkAdd {s : State} (h : s.PackerOpen) (code : Code) : (s.pkAdd code).PackerOpen := by
  rw [State.pkAdd_eq]; exact h

theorem State.PackerOpen.pkAdds {s : State} (h : s.PackerOpen) (codes : List Code) : (s.pkAdds codes).PackerOpen := by
  rw [State.pkAdds_eq]; exact h

theorem State.pkAdds_padZero {s : State} (hpad : s.pkAcc &&& (0xFF#8 >>> s.pkOff.toNat) = 0#8) (codes : List Code) :
    (s.pkAdds codes).pkAcc &&& (0xFF#8 >>> (s.pkAdds codes).pkOff.toNat) = 0#8 := by
  induction codes generalizing s with
  | nil => exact hpad
  | cons code codes ih => exact ih (State.pkAdd_padZero code hpad)

/-- R105's induction on the number of PK_ADD commands. -/
theorem State.pkAdds_bits {s : State} (hpad : s.pkAcc &&& (0xFF#8 >>> s.pkOff.toNat) = 0#8) (codes : List Code) :
    ∃ bytes : List Byte, (s.pkAdds codes).pb = s.pb ++ bytes.map .byte ∧
      (bytes.flatMap fun b => bitsMsb b) ++ (s.pkAdds codes).heldBits = s.heldBits ++ codeBits codes := by
  induction codes generalizing s with
  | nil => exact ⟨[], by simp [codeBits]⟩
  | cons code codes ih =>
    obtain ⟨earlier, hpb, hbits⟩ := State.pkAdd_bits hpad code
    obtain ⟨later, hpbs, hbitss⟩ := ih (State.pkAdd_padZero code hpad)
    refine ⟨earlier ++ later, by simp [hpbs, hpb], ?_⟩
    rw [State.pkAdds_cons, List.flatMap_append, List.append_assoc, hbitss, ← List.append_assoc, hbits, List.append_assoc]
    rfl

/-- What is still presented plays no part in PK_ADD. -/
theorem State.present_pkAdd (s : State) (rest : List Instr) (code : Code) :
    (s.present rest).pkAdd code = (s.pkAdd code).present rest := by
  unfold State.pkAdd State.present
  dsimp only
  split <;> rfl

/-- PK_ADD of each code presented to an open packer, and then what is presented after them. -/
theorem run_present_pkAdds {s : State} (hopen : s.PackerOpen) (codes : List Code) (rest : List Instr) (k : Nat) :
    Host.Core.run Sys2Proof.core (codes.length + k) (s.present (codes.map .pkAdd ++ rest)) =
      Host.Core.run Sys2Proof.core k ((s.pkAdds codes).present rest) := by
  induction codes generalizing s with
  | nil => rw [List.length_nil, Nat.zero_add]; rfl
  | cons code codes ih =>
    have ⟨hfault, hclosed, hpk⟩ := hopen
    have hexec := exec_pkAdd_open (s := s.present (codes.map .pkAdd ++ rest)) code hfault hclosed hpk
    rw [State.present_pkAdd] at hexec
    rw [List.length_cons, Nat.add_right_comm, List.map_cons, List.cons_append, run_present_cons rfl hexec]
    exact ih (hopen.pkAdd code)

/-- Settles O34: five bits enter and at most the first eight leave, at each PK_ADD. -/
theorem packerHoldsTheBitsOfItsCodes : Obligations.PackerHoldsTheBitsOfItsCodes := by
  unfold Obligations.PackerHoldsTheBitsOfItsCodes
  intro s codes hopen hacc hoff
  obtain ⟨bytes, hpb, hbits⟩ := State.pkAdds_bits (s := s) (by simp [hacc]) codes
  have hrun := run_present_pkAdds hopen codes [] 0
  rw [List.append_nil] at hrun
  refine ⟨s.pkAdds codes, bytes, hrun, hpb, hbits.trans ?_⟩
  simp [State.heldBits, hoff]

/-! ## PACK -/

/-- The partial byte is its filled bits and then zeros (R27). -/
theorem bitsMsb_of_padZero {acc : BitVec 8} {off : BitVec 3} (hpad : acc &&& (0xFF#8 >>> off.toNat) = 0#8) :
    bitsMsb acc = (bitsMsb acc).take off.toNat ++ List.replicate (8 - off.toNat) false := by
  refine List.ext_getElem (by simp [bitsMsb_length]; omega) fun i hi _ => ?_
  rw [bitsMsb_length] at hi
  rw [List.getElem_append]
  split
  · next => simp
  · next h =>
    have hfilled : off.toNat ≤ i := by simpa [bitsMsb_length, hi] using h
    simpa [bitsMsb, BitVec.getMsbD, hi] using getLsbD_eq_false_of_padZero hpad (i := 7 - i) (by omega)

/-- The packed buffer is the bytes put out and then the partial byte, where there is one (R102, R105). -/
theorem packedBuffer_eq {codes : List Code} {bytes : List Byte} {acc : BitVec 8} {off : BitVec 3}
    (hpad : acc &&& (0xFF#8 >>> off.toNat) = 0#8)
    (h : (bytes.flatMap fun b => bitsMsb b) ++ (bitsMsb acc).take off.toNat = codeBits codes) :
    packedBuffer codes = bytes ++ if off.toNat > 0 then [acc] else [] := by
  have hoff := off.isLt
  have hlength : (codeBits codes).length = 8 * bytes.length + off.toNat := by
    rw [← h, List.length_append, List.length_take, bitsMsb_length, List.length_flatMap]
    simp [bitsMsb_length]; omega
  rw [← cutBytes_flatMap_bitsMsb (bytes ++ _), List.flatMap_append, packedBuffer, padBits, hlength, ← h]
  split
  · next hpartial =>
    have hmissing : (8 - (8 * bytes.length + off.toNat) % 8) % 8 = 8 - off.toNat := by omega
    rw [hmissing, List.append_assoc, ← bitsMsb_of_padZero hpad, List.flatMap_singleton]
  · next hwhole =>
    have hzero : off.toNat = 0 := by omega
    simp [hzero]

/-- Settles O35: the partial byte that PK_CLOSE puts out is the last byte of the packed buffer, its zeros the pad. -/
theorem packPutsOutThePackedBuffer : Obligations.PackPutsOutThePackedBuffer := by
  unfold Obligations.PackPutsOutThePackedBuffer
  intro s codes hopen hacc hoff
  have hpad : s.pkAcc &&& (0xFF#8 >>> s.pkOff.toNat) = 0#8 := by simp [hacc]
  have hheld : s.heldBits = [] := by simp [State.heldBits, hoff]
  obtain ⟨bytes, hpb, hbits⟩ := State.pkAdds_bits hpad codes
  have hbuffer := packedBuffer_eq (State.pkAdds_padZero hpad codes) (hbits.trans (hheld ▸ List.nil_append _))
  obtain ⟨hfault, hclosed, -⟩ := hopen.pkAdds codes
  have hclose : exec .pkClose ((s.pkAdds codes).present []) = .next (s.pkAdds codes).pkClose :=
    exec_pkClose_open hfault hclosed
  refine ⟨_, (run_present_pkAdds hopen codes [.pkClose] 1).trans (run_present_cons rfl hclose 0), ?_⟩
  rw [State.pkClose_eq, State.pkAdds_eq]
  simp [hpb, hbuffer, hacc, hoff, apply_ite (List.map PbItem.byte)]

end Sys2Proof.Machine
end

section
/-! NOP and the three reads (42_readback.md R107 to R111), and the settlement of O38, O39 and O42. -/

namespace Sys2Proof.Machine

/-! ## NOP -/

theorem exec_nop (s : State) : exec .nop s = .next s := rfl

/-- Settles O38: NOP has no effect and no check to fail. -/
theorem nopChangesNothing : Obligations.NopChangesNothing := by
  unfold Obligations.NopChangesNothing
  exact exec_nop

/-! ## RD_COUNT -/

/-- A KEY up to 0x100 names a counter, whatever the state (R108). -/
theorem exec_rdCount {key : Key} (h : key.toNat ≤ Config.keyShift) (s : State) :
    exec (.rdCount key) s = .next (s.respond (BitVec.ofNat 32 (s.count.get key.toNat))) :=
  exec_read (.inl ⟨key, rfl, h, rfl⟩)

/-- A KEY above 0x100 names no counter (R61). -/
theorem exec_rdCount_illegal {key : Key} (h : Config.keyShift < key.toNat) (s : State) :
    exec (.rdCount key) s = .next (s.illegal (encode (.rdCount key))) := by
  simp [exec, execRdCount, keyIndex, Nat.not_le.mpr h]

/-- The word of RD_COUNT is its row's match with KEY in the low bits (R60). -/
theorem encode_rdCount (key : Key) : encode (.rdCount key) = 0x5000#16 ||| key.setWidth 16 := rfl

/-- A counter fits a response word, since CNT_W is at most RSP_W (R9). -/
theorem State.Inv.count_get_lt {s : State} (hinv : s.Inv) (k : Nat) : s.count.get k < 2 ^ 32 := by
  obtain ⟨⟨-, hwidth⟩, -⟩ := Params.wf_iff.mp hinv.params
  exact (Counters.get_lt hinv.count k).trans_le (Nat.pow_le_pow_right (by decide) hwidth)

/-- Settles O39: a KEY up to 0x100 reads a counter, which zero-extension keeps, and any other KEY makes the word illegal. -/
theorem rdCountAnswersTheCounter : Obligations.RdCountAnswersTheCounter := by
  unfold Obligations.RdCountAnswersTheCounter
  refine fun s key => ⟨fun hkey => ⟨exec_rdCount hkey s, fun hinv => ?fits⟩, fun hkey => ?illegal⟩
  case fits => exact (BitVec.toNat_ofNat ..).trans (Nat.mod_eq_of_lt (hinv.count_get_lt _))
  case illegal => rw [exec_rdCount_illegal hkey, encode_rdCount]; rfl

/-! ## The three reads -/

/-- Every well-formed read has an answer in every state. -/
theorem exists_readValue {i : Instr} (hwf : i.wf = true)
    (hread : (∃ key, i = .rdCount key) ∨ i = .rdStatus ∨ i = .rdFault) (s : State) : ∃ v, ReadValue i s v := by
  rcases hread with ⟨key, rfl⟩ | rfl | rfl
  · exact ⟨_, .inl ⟨key, rfl, of_decide_eq_true hwf, rfl⟩⟩
  · exact ⟨_, .inr (.inl ⟨rfl, rfl⟩)⟩
  · exact ⟨_, .inr (.inr ⟨rfl, rfl⟩)⟩

/-- The answer to a read is a value of the registers and the counters, not of what RSP holds (R111). -/
theorem readValue_setRsp {i : Instr} {s : State} {v : Rsp} (rsp : List Rsp) :
    ReadValue i { s with rsp := rsp } v ↔ ReadValue i s v := Iff.rfl

/-- Settles O42: a read answers the same word whatever RSP holds, and appending it is all the read does. -/
theorem readsAppendOneWordAndChangeNothingElse : Obligations.ReadsAppendOneWordAndChangeNothingElse := by
  unfold Obligations.ReadsAppendOneWordAndChangeNothingElse
  refine ⟨exec_nop, fun s i hwf hread => ?_⟩
  obtain ⟨v, hv⟩ := exists_readValue hwf hread s
  exact ⟨v, fun rsp => exec_read ((readValue_setRsp rsp).mpr hv)⟩

end Sys2Proof.Machine
end

section
/-! Taking a fault and the fault state (60_exceptions.md R114 to R120): what misuses, what a word that takes a fault changes,
what the fault state lets through, and the settlement of O10, O11, O12 and O13. -/

namespace Sys2Proof.Machine

/-! ## Misuse (R115) -/

/-- R115's table, by the command. -/
theorem faulting_protocolMisuse_iff {i : Instr} {s : State} : Faulting i s .protocolMisuse ↔ match i with
    | .encChar _ | .encClose => s.encClosed = true
    | .pkAdd _ => s.encClosed = false ∨ s.pkClosed = true
    | .pkClose => s.encClosed = false
    | .nop | .rdCount _ | .rdStatus | .rdFault => False := by
  cases i <;> simp [Faulting]

/-- `Misuse(w)` on the word is the misuse of the command it decodes to, since the OP of the word is the command's. -/
theorem State.misuse_iff_faulting {w : Word} {i : Instr} (hd : decode w = .ok i) (s : State) :
    s.Misuse w ↔ Faulting i s .protocolMisuse := by
  rw [State.Misuse, opOf_of_decode hd, faulting_protocolMisuse_iff]
  cases i <;> simp [opcode]

/-- A well-formed command that does not misuse takes no fault. -/
theorem exec_takes_no_fault {i : Instr} {s : State} (hwf : i.wf = true) (hf : s.fault = false)
    (h : ¬ Faulting i s .protocolMisuse) : ∃ t, exec i s = .next t ∧ t.fault = false := by
  obtain ⟨t, ht⟩ := exec_next i s
  refine ⟨t, ht, eq_false_of_ne_true fun htrue => ?_⟩
  obtain ⟨c, hc, -⟩ := exec_takes_fault hf ht htrue
  obtain ⟨rfl, -⟩ := misuse_of_faulting hwf hc
  exact h hc

/-- Settles O11: each of the four commands faults exactly under its row of R115's table, and no row is NOP's or a read's. -/
theorem misuseRaisesProtocolMisuseExactly : Obligations.MisuseRaisesProtocolMisuseExactly := by
  unfold Obligations.MisuseRaisesProtocolMisuseExactly
  refine fun s hf => ⟨fun i w misuse hrow => ?fourCommands, fun i hwf hread => exec_takes_no_fault hwf hf ?notMisuse⟩
  case notMisuse =>
    rw [faulting_protocolMisuse_iff]
    rcases hread with rfl | ⟨key, rfl⟩ | rfl | rfl <;> exact id
  case fourCommands =>
    obtain ⟨hwf, hword, hmisuse⟩ : i.wf = true ∧ w = encode i ∧ (misuse ↔ Faulting i s .protocolMisuse) := by
      simp only [← BitVec.toNat_inj (x := w), encode_toNat, faulting_protocolMisuse_iff]
      rcases hrow with ⟨ch, rfl, hw, rfl⟩ | ⟨rfl, rfl, rfl⟩ | ⟨code, rfl, hw, rfl⟩ | ⟨rfl, rfl, rfl⟩
      · exact ⟨rfl, hw, Iff.rfl⟩
      · exact ⟨rfl, rfl, Iff.rfl⟩
      · exact ⟨rfl, hw, Iff.rfl⟩
      · exact ⟨rfl, rfl, Iff.rfl⟩
    rw [hmisuse, hword]
    exact ⟨exec_faulting hf, exec_takes_no_fault hwf hf⟩

/-! ## Fault entry (R117) -/

/-- A step that takes a fault is `raise` for the word accepted, with one of the two causes. -/
theorem step_takes_fault {s t : State} {w : Word} {rest : List HostInput} (hin : s.input = .command w :: rest)
    (hf : s.fault = false) (h : step s = .next t) (ht : t.fault = true) :
    ∃ c, (c = .protocolMisuse ∨ c = .illegalCommand) ∧ t = State.raise { s with input := rest } c w := by
  rcases hd : decode w with e | i
  · rw [step_illegal_open hin hf (legal_eq_false_iff.mpr ⟨e, hd⟩)] at h
    cases h
    exact ⟨_, .inr rfl, rfl⟩
  · rw [step_command hin hd] at h
    obtain ⟨c, hc, rfl⟩ := exec_takes_fault (s := { s with input := rest }) hf h ht
    obtain ⟨rfl, -⟩ := misuse_of_faulting (wf_of_decode hd) hc
    exact ⟨_, .inl rfl, by rw [encode_of_decode hd]⟩

/-- Settles O12: `raise` is all that a step taking a fault does. -/
theorem faultEntryChangesOnlyTheFaultRegisters : Obligations.FaultEntryChangesOnlyTheFaultRegisters := by
  unfold Obligations.FaultEntryChangesOnlyTheFaultRegisters
  intro s t w rest hin hf h ht
  obtain ⟨c, hcause, rfl⟩ := step_takes_fault hin hf h ht
  exact ⟨hcause, rfl, rfl⟩

/-! ## The fault state (R118) -/

/-- The words that still execute in the fault state: NOP and the reads, where legal (R114). -/
def RunsWhileFaulted (w : Word) : Prop := legal w = true ∧ opOf w ∈ [0x0#4, 0x5#4, 0x6#4, 0x7#4]

/-- A word that would take a fault is none of them (R118). -/
theorem State.not_runsWhileFaulted {s : State} {w : Word} (h : legal w = false ∨ s.Misuse w) : ¬ RunsWhileFaulted w := by
  rintro ⟨hlegal, hop⟩
  rcases h with h | ⟨h, -⟩ | ⟨h, -⟩ | ⟨h, -⟩ | ⟨h, -⟩
  · simp [hlegal] at h
  all_goals simp [h] at hop

/-- In the fault state a read answers, and no other command changes anything. -/
theorem exec_while_faulted {i : Instr} {s t : State} (hf : s.fault = true) (h : exec i s = .next t) :
    t = s ∨ ∃ v, ReadValue i s v ∧ t = s.respond v := by
  rcases exec_cases h with ⟨rfl, -⟩ | ⟨hopen, -⟩ | ⟨hopen, -⟩ | ⟨hopen, -⟩ | ⟨hopen, -⟩ | ⟨hopen, -⟩ | hread
  case inl => exact .inl rfl
  case inr.inr.inr.inr.inr.inr => exact .inr hread
  all_goals simp [hf] at hopen

/-- In the fault state an accepted word changes nothing, or is a legal read that answers. -/
theorem step_while_faulted {s t : State} {w : Word} {rest : List HostInput} (hin : s.input = .command w :: rest)
    (hf : s.fault = true) (h : step s = .next t) :
    t = { s with input := rest } ∨ RunsWhileFaulted w ∧ ∃ v, t = State.respond { s with input := rest } v := by
  rcases hd : decode w with e | i
  · rw [step_illegal hin hd, State.illegal, if_pos hf] at h
    cases h
    exact .inl rfl
  · rw [step_command hin hd] at h
    refine (exec_while_faulted (s := { s with input := rest }) hf h).imp_right ?_
    rintro ⟨v, hv, ht⟩
    refine ⟨⟨legal_iff.mpr ⟨i, hd⟩, ?_⟩, v, ht⟩
    rw [opOf_of_decode hd]
    rcases hv with ⟨key, rfl, -⟩ | ⟨rfl, -⟩ | ⟨rfl, -⟩ <;> simp [opcode]

/-- Every word but a legal NOP or read is discarded (R118). -/
theorem step_discards {s : State} {w : Word} {rest : List HostInput} (hin : s.input = .command w :: rest)
    (hf : s.fault = true) (h : ¬ RunsWhileFaulted w) : step s = .next { s with input := rest } := by
  obtain ⟨t, ht⟩ := everyStepAnswersANextState s
  obtain rfl := (step_while_faulted hin hf ht).resolve_right fun hruns => h hruns.1
  exact ht

/-- Settles O13: the fault state answers reads and changes nothing else, and reset's values are those of R127. -/
theorem onlyResetLeavesTheFaultState : Obligations.OnlyResetLeavesTheFaultState := by
  unfold Obligations.OnlyResetLeavesTheFaultState
  intro s t e rest hin hf h
  cases e with
  | reset =>
    rw [step_reset hin] at h
    cases h
    exact ⟨fun _ => ⟨rfl, rfl, rfl⟩, fun hne => (hne rfl).elim, by simp⟩
  | command w =>
    refine ⟨by simp, fun _ => ?keeps, fun w' hw hfaults => ?discards⟩
    case keeps => rcases step_while_faulted hin hf h with rfl | ⟨-, v, rfl⟩ <;> rfl
    case discards =>
      cases hw
      rw [step_discards hin hf (State.not_runsWhileFaulted hfaults)] at h
      cases h
      rfl

/-! ## The order of the checks (R114) -/

/-- A legal word that misuses raises PROTOCOL_MISUSE while FAULT = 0 (R115). -/
theorem step_misuse_open {s : State} {w : Word} {rest : List HostInput} (hin : s.input = .command w :: rest)
    (hf : s.fault = false) (hlegal : legal w = true) (hmisuse : s.Misuse w) :
    step s = .next (State.raise { s with input := rest } .protocolMisuse w) := by
  obtain ⟨i, hd⟩ := legal_iff.mp hlegal
  rw [step_command hin hd, ← encode_of_decode hd]
  exact exec_faulting (s := { s with input := rest }) hf ((State.misuse_iff_faulting hd s).mp hmisuse)

/-- Settles O10: one lemma for each of R114's steps, in its order. -/
theorem acceptedWordsMeetTheChecksInOrder : Obligations.AcceptedWordsMeetTheChecksInOrder := by
  unfold Obligations.AcceptedWordsMeetTheChecksInOrder
  rintro s _ w rest hin rfl
  refine ⟨fun hf => ⟨fun ⟨hlegal, _⟩ => ?runs, step_discards hin hf⟩, step_illegal_open hin, step_misuse_open hin,
    fun hf hlegal hmisuse => ?executes⟩
  all_goals obtain ⟨i, hd⟩ := legal_iff.mp hlegal
  case runs => exact ⟨i, hd, step_command hin hd⟩
  case executes =>
    obtain ⟨t, ht, hfalse⟩ := exec_takes_no_fault (s := { s with input := rest }) (wf_of_decode hd) hf
      (mt (State.misuse_iff_faulting hd s).mpr hmisuse)
    exact ⟨i, t, hd, step_command hin hd, ht, hfalse⟩

end Sys2Proof.Machine
end

section
/-! Reset (70_reset_and_hazards.md R127), a text encoded as a whole: its counters against the source's counts (R134) and its
codes, a SESSION to its normal end (R132, R135), and the settlement of O9, O28 and O37. -/

namespace Sys2Proof.Machine

/-! ## Reset -/

/-- Settles O9: the state after reset is itself what an edge with `rst` makes of a state. -/
theorem resetGivesEveryEntryItsResetValue : Obligations.ResetGivesEveryEntryItsResetValue := by
  unfold Obligations.ResetGivesEveryEntryItsResetValue
  intro s rest hin
  refine ⟨_, step_reset hin, fun u hu => ?_, fun _ => rfl, rfl⟩
  obtain ⟨before, rfl⟩ : ∃ before : State, u = before.applyReset := hu.elim (⟨_, ·⟩) (⟨State.reset, ·⟩)
  simp

/-! ## A text as a whole -/

/-- ENC_CHAR of each character, in order. -/
def State.encChars (s : State) (text : List Ch) : State := text.foldl State.encChar s

@[simp] theorem State.encChars_nil (s : State) : s.encChars [] = s := rfl

@[simp] theorem State.encChars_cons (s : State) (ch : Ch) (text : List Ch) :
    s.encChars (ch :: text) = (s.encChar ch).encChars text := rfl

/-- Only MODE, COUNT, CS and DIAG change (R86). -/
theorem State.encChars_eq (s : State) (text : List Ch) : s.encChars text = { s with
    mode := (s.encChars text).mode, count := (s.encChars text).count, cs := (s.encChars text).cs
    diag := (s.encChars text).diag } := by
  induction text generalizing s with
  | nil => rfl
  | cons ch text ih => rw [State.encChars_cons, ih, State.encChar_eq]

theorem State.encChar_shiftStatus (s : State) (ch : Ch) : (s.encChar ch).shiftStatus = s.shiftStatus := by
  rw [State.encChar_eq]

theorem State.encChar_params (s : State) (ch : Ch) : (s.encChar ch).params = s.params := by
  rw [State.encChar_eq]

theorem State.encChars_params (s : State) (text : List Ch) : (s.encChars text).params = s.params := by
  rw [State.encChars_eq]

theorem State.encChars_input (s : State) (text : List Ch) : (s.encChars text).input = s.input := by
  rw [State.encChars_eq]

theorem State.EncoderOpen.encChar {s : State} (h : s.EncoderOpen) (ch : Ch) : (s.encChar ch).EncoderOpen := by
  rw [State.encChar_eq]; exact h

theorem State.EncoderOpen.encChars {s : State} (h : s.EncoderOpen) (text : List Ch) : (s.encChars text).EncoderOpen := by
  rw [State.encChars_eq]; exact h

theorem State.Inv.encChars {s : State} (hinv : s.Inv) (hopen : s.EncoderOpen) (text : List Ch) :
    (s.encChars text).Inv := by
  induction text generalizing s with
  | nil => exact hinv
  | cons ch text ih => exact ih (hinv.encChar hopen.2 ch) (hopen.encChar ch)

/-- What is still presented plays no part in ENC_CHAR. -/
theorem State.present_encChar (s : State) (rest : List Instr) (ch : Ch) :
    (s.present rest).encChar ch = (s.encChar ch).present rest := by
  rw [State.encChar_eq, State.encChar_eq]; rfl

/-- A text presented to an open encoder, and then what is presented after it. -/
theorem run_present_encText {s : State} (hopen : s.EncoderOpen) (text : List Ch) (rest : List Instr) (k : Nat) :
    Host.Core.run Sys2Proof.core (text.length + k) (s.present (encText text ++ rest)) =
      Host.Core.run Sys2Proof.core k ((s.encChars text).present rest) := by
  induction text generalizing s with
  | nil => rw [List.length_nil, Nat.zero_add]; rfl
  | cons ch text ih =>
    have hexec := exec_encChar_open (s := s.present (encText text ++ rest)) ch hopen.1 hopen.2
    rw [State.present_encChar] at hexec
    calc Host.Core.run Sys2Proof.core ((ch :: text).length + k) (s.present (encText (ch :: text) ++ rest))
      _ = Host.Core.run Sys2Proof.core (text.length + k + 1) (s.present (.encChar ch :: (encText text ++ rest))) := by
        rw [List.length_cons, Nat.add_right_comm]; rfl
      _ = Host.Core.run Sys2Proof.core (text.length + k) ((s.encChar ch).present (encText text ++ rest)) :=
        run_present_cons rfl hexec _
      _ = _ := ih (hopen.encChar ch)

/-! ## The counters of a text (R134) -/

/-- While SHIFT_STATUS is 0, the block counts a character under the source's keys (R20, R92). -/
theorem charKeys_lower (ch : Ch) : charKeys .lower ch = countedUnder ch := by
  unfold charKeys countedUnder
  rcases classify ch with _ | _ | _ | (_ | _) | _ <;> rfl

theorem sourceCount_cons (ch : Ch) (text : List Ch) (k : Nat) :
    sourceCount (ch :: text) k = (countedUnder ch).count k + sourceCount text k := by
  simp [sourceCount]

/-- One character adds the source's count of it, modulo 2^CNT_W (R25). -/
theorem State.encChar_count_modEq {s : State} (hlower : s.shiftStatus = .lower) (ch : Ch) (k : Nat) :
    (s.encChar ch).count.get k ≡ s.count.get k + (countedUnder ch).count k [MOD 2 ^ s.params.cntW] := by
  have hnodup := charKeys_nodup .lower ch
  rw [State.encChar_eq, hlower, ← charKeys_lower]
  dsimp only
  rw [countAll_get k hnodup, hnodup.count]
  split
  · exact Nat.mod_modEq _ _
  · rfl

/-- A text adds the source's count of it, modulo 2^CNT_W. -/
theorem State.encChars_count_modEq {s : State} (hlower : s.shiftStatus = .lower) (text : List Ch) (k : Nat) :
    (s.encChars text).count.get k ≡ s.count.get k + sourceCount text k [MOD 2 ^ s.params.cntW] := by
  induction text generalizing s with
  | nil => rfl
  | cons ch text ih =>
    have hfirst := State.encChar_count_modEq hlower ch k
    have hrest := ih ((State.encChar_shiftStatus s ch).trans hlower)
    rw [State.encChar_params] at hrest
    rw [sourceCount_cons, ← Nat.add_assoc]
    exact hrest.trans (hfirst.add_right _)

/-- Settles O28: a counter is below 2^CNT_W, so it is the remainder that it agrees with. -/
theorem countersAreTheSourceCountsModuloTheWidth : Obligations.CountersAreTheSourceCountsModuloTheWidth := by
  unfold Obligations.CountersAreTheSourceCountsModuloTheWidth
  intro s text hopen hinv
  have hrun := run_present_encText hopen text [] 0
  rw [List.append_nil] at hrun
  have hcount (k : Nat) : (s.encChars text).count.get k = (s.count.get k + sourceCount text k) % 2 ^ s.params.cntW := by
    have hlt := Counters.get_lt (hinv.encChars hopen text).count k
    rw [State.encChars_params] at hlt
    rw [← State.encChars_count_modEq hinv.shiftLower text k, Nat.mod_eq_of_lt hlt]
  exact ⟨s.encChars text, hrun, hcount, fun k hbelow => (hcount k).trans (Nat.mod_eq_of_lt hbelow)⟩

/-! ## The codes of a text -/

/-- A text puts at most three codes on CS for each character, none of them NULL (R96). -/
theorem State.encChars_cs (s : State) (text : List Ch) : ∃ codes, (s.encChars text).cs = s.cs ++ codes ∧
    codeNull ∉ codes ∧ codes.length ≤ 3 * text.length := by
  induction text generalizing s with
  | nil => exact ⟨[], by simp⟩
  | cons ch text ih =>
    obtain ⟨later, hcs, hnull, hlength⟩ := ih (s.encChar ch)
    have hnullFirst := codeNull_notMem_charCodes s.params s.mode s.shiftStatus ch
    have hlengthFirst := charCodes_length_le s.params s.mode s.shiftStatus ch
    refine ⟨charCodes s.params s.mode s.shiftStatus ch ++ later, ?_, by simp [hnull, hnullFirst], ?_⟩
    · rw [State.encChars_cons, hcs, State.encChar_eq, List.append_assoc]
    · rw [List.length_append, List.length_cons]; omega

/-! ## The packed buffers of PB (R72) -/

theorem packedBuffers_append_byte (pb : List PbItem) (b : Byte) : packedBuffers (pb ++ [.byte b]) = packedBuffers pb := by
  simp [packedBuffers]

/-- `End` makes a packed buffer of the bytes since the last one. -/
theorem packedBuffers_append_bufferEnd (pb : List PbItem) :
    packedBuffers (pb ++ [.bufferEnd]) = packedBuffers pb ++ [openBuffer pb] := by
  induction pb using List.reverseRecOn with
  | nil => rfl
  | append_singleton pb item ih =>
    cases item with
    | byte b =>
      rw [openBuffer_append_byte, packedBuffers_append_byte]
      simpa [packedBuffers] using ih
    | bufferEnd => simp [packedBuffers, openBuffer]

theorem packedBuffers_map_byte (bytes : List Byte) : packedBuffers (bytes.map .byte) = [] := by
  induction bytes using List.reverseRecOn with
  | nil => rfl
  | append_singleton bytes b ih => rw [List.map_append, List.map_singleton, packedBuffers_append_byte, ih]

theorem openBuffer_map_byte (bytes : List Byte) : openBuffer (bytes.map .byte) = bytes := by
  induction bytes using List.reverseRecOn with
  | nil => rfl
  | append_singleton bytes b ih => rw [List.map_append, List.map_singleton, openBuffer_append_byte, ih]

/-- The bytes of one buffer and its `End` are that one packed buffer. -/
theorem packedBuffers_one (bytes : List Byte) : packedBuffers (bytes.map .byte ++ [.bufferEnd]) = [bytes] := by
  rw [packedBuffers_append_bufferEnd, packedBuffers_map_byte, openBuffer_map_byte, List.nil_append]

/-! ## A session -/

/-- The first half of a session: the text is encoded and the encoder closed. -/
theorem run_present_sessionEncode {s : State} (hopen : s.EncoderOpen) (text : List Ch) :
    Host.Core.run Sys2Proof.core (text.length + 1) (s.present (sessionEncode text)) = .next (s.encChars text).encClose :=
  have ⟨hfault, hclosed⟩ := hopen.encChars text
  have hclose : exec .encClose ((s.encChars text).present []) = .next (s.encChars text).encClose :=
    exec_encClose_open hfault hclosed
  (run_present_encText hopen text [.encClose] 1).trans (run_present_cons rfl hclose 0)

/-- Settles O37: encoding a text leaves the packer and PB as they were before ENC_CLOSE, empty, so PACK's whole effect is
O35's. -/
theorem sessionPacksItsCodeStreamAndEndsNormally : Obligations.SessionPacksItsCodeStreamAndEndsNormally := by
  unfold Obligations.SessionPacksItsCodeStreamAndEndsNormally
  intro s text hopen hinv
  obtain ⟨codes, hcs, hnull, hlength⟩ := State.encChars_cs s text
  have hencoded := hopen.encChars text
  obtain ⟨hacc, hoff, hpk, hpb⟩ := (hinv.encChars hopen text).beforeClose hencoded.2
  obtain ⟨u, hrun, rfl⟩ := packPutsOutThePackedBuffer (s.encChars text).encClose (s.encChars text).encClose.cs
    ⟨hencoded.1, rfl, hpk⟩ hacc hoff
  have hout : (s.encChars text).encClose.pb = [] := hpb
  refine ⟨_, _, run_present_sessionEncode hopen text, ⟨codes, congrArg (· ++ [codeNull]) hcs, hnull, hlength⟩, hrun, rfl,
    by simp [hout], by simp [hout, packedBuffers_one], ?normal, hencoded.1, State.encChars_input s text⟩
  case normal => simp [State.endedNormally, State.encClose, hencoded.1]

end Sys2Proof.Machine
end
